-- ==== Sys2Proof/Word.lean ====
section
/-!
DEFINITION. The two word types of the LS-8 core and their plainest arithmetic: bytes (cells, registers,
operand bytes) and the 9-bit program counter. Rules: 00_scope.md section 5, 10_state.md R23 and R26.
-/

namespace Sys2Proof

/-- An unsigned 8-bit value: a memory cell, a register, an operand byte (00_scope.md R7, `CELL_WIDTH`, `XLEN`). -/
abbrev Byte := BitVec 8

/-- The program counter and `fault_info`: 9 bits (10_state.md R26, 60_exceptions.md R177). -/
abbrev Word9 := BitVec 9

/-- `trunc8(v)`: the low 8 bits of a non-negative integer (00_scope.md section 5). -/
def trunc8 (v : Nat) : Byte := BitVec.ofNat 8 v

/-- `zext_9(v)`: a byte as a 9-bit number (10_state.md R28). -/
def zext9 (v : Byte) : Word9 := BitVec.ofNat 9 v.toNat

end Sys2Proof
end

