-- ==== Sys2Proof/Config.lean ====
section
/-!
DEFINITION. The implementation parameters of 00_scope.md R7. All are fixed by the spec, and the core has no
free value (70_reset_and_hazards.md R210), so nothing here is opaque.
-/

namespace Sys2Proof.Config

/-- `ADDR_MAX`: the highest memory address (00_scope.md R7). -/
abbrev addrMax : Nat := 255

/-- `MEM_SIZE`: the number of memory cells (00_scope.md R7). -/
abbrev memSize : Nat := 256

/-- The length in bytes of the longest instruction (30_encoding.md R70). -/
abbrev maxLength : Nat := 3

/-- `MEM_RESET`: what a cell holds that nothing has loaded or written (10_state.md R42; log entry 2). This is
the one value an address that the memory does not list reads as. -/
abbrev memReset : Byte := 0x00#8

/-- `GPR_RESET`: R0 to R6 after reset (10_state.md R42 and R43, the spec's decision D14; log entry 1). -/
abbrev gprReset : Byte := 0x00#8

/-- `SP_RESET`: register 7 after reset (10_state.md R42). -/
abbrev spReset : Byte := 0xF4#8

/-- `PC_RESET`: the entry point (10_state.md R42, 70_reset_and_hazards.md R201). -/
abbrev pcReset : Word9 := 0#9

/-- The instruction register after reset (10_state.md R42, decision D17; log entry 12). -/
abbrev irReset : Byte := 0x00#8

end Sys2Proof.Config
end

