-- ==== Sys2Proof/Syntax.lean ====
section
/-!
DEFINITION. The syntax of the 20 instructions (30_encoding.md R71, R76): the mnemonics, the five formats, the
registers and the instructions with their operand bytes.

Operand bytes are kept as they were fetched. Decoding depends on the opcode byte alone (30_encoding.md R84);
whether a register operand byte names a register is a check of its own, made after all bytes are fetched
(40_engine_cycle.md R94).
-/

namespace Sys2Proof

/-- The eight registers (10_state.md R21). -/
inductive Reg where
  | r0 | r1 | r2 | r3 | r4 | r5 | r6 | r7
  deriving DecidableEq, Repr

/-- The stack pointer is register 7 (10_state.md R22). -/
abbrev Reg.sp : Reg := .r7

/-- The operand byte that names a register: its index (30_encoding.md R73). -/
def Reg.toByte : Reg → Byte
  | .r0 => 0#8
  | .r1 => 1#8
  | .r2 => 2#8
  | .r3 => 3#8
  | .r4 => 4#8
  | .r5 => 5#8
  | .r6 => 6#8
  | .r7 => 7#8

/-- The 20 mnemonics, in the order of 30_encoding.md R76. -/
inductive Mnemonic where
  | hlt | ldi | prn | mul | push | pop | call | ret | add | cmp
  | jmp | jeq | jne | and | or | xor | not | shl | shr | mod
  deriving DecidableEq, Repr

/-- The five instruction formats (30_encoding.md R71). -/
inductive Format where
  /-- opcode only -/
  | f0
  /-- opcode, register `a` -/
  | f1
  /-- opcode, register `a`, register `b` -/
  | f2r
  /-- opcode, register `a`, immediate byte -/
  | f2i
  /-- opcode, register `a`, pad byte -/
  | f2p
  deriving DecidableEq, Repr

/-- The length of a format in bytes (30_encoding.md R71). -/
def Format.length : Format → Nat
  | .f0 => 1
  | .f1 => 2
  | .f2r => 3
  | .f2i => 3
  | .f2p => 3

/-- The format of each mnemonic (30_encoding.md R76, column "format"). -/
def Mnemonic.format : Mnemonic → Format
  | .hlt | .ret => .f0
  | .prn | .push | .pop | .call | .jmp | .jeq | .jne => .f1
  | .add | .mul | .cmp | .and | .or | .xor | .shl | .shr | .mod => .f2r
  | .ldi => .f2i
  | .not => .f2p

/-- The ALU operations that compute a register result (41_alu.md R110). CMP writes only the flag, and its
comparison is a flag computation. -/
inductive AluOp where
  | add | mul | and | or | xor | not | shl | shr | mod
  deriving DecidableEq, Repr

/-- An instruction with the operand bytes fetched for it, one constructor per row of the opcode table. -/
inductive Instr where
  | hlt
  | ldi (a imm : Byte)
  | prn (a : Byte)
  | mul (a b : Byte)
  | push (a : Byte)
  | pop (a : Byte)
  | call (a : Byte)
  | ret
  | add (a b : Byte)
  | cmp (a b : Byte)
  | jmp (a : Byte)
  | jeq (a : Byte)
  | jne (a : Byte)
  | and (a b : Byte)
  | or (a b : Byte)
  | xor (a b : Byte)
  | not (a pad : Byte)
  | shl (a b : Byte)
  | shr (a b : Byte)
  | mod (a b : Byte)
  deriving DecidableEq, Repr

/-- The mnemonic of an instruction. -/
def Instr.mnemonic : Instr → Mnemonic
  | .hlt => .hlt
  | .ldi _ _ => .ldi
  | .prn _ => .prn
  | .mul _ _ => .mul
  | .push _ => .push
  | .pop _ => .pop
  | .call _ => .call
  | .ret => .ret
  | .add _ _ => .add
  | .cmp _ _ => .cmp
  | .jmp _ => .jmp
  | .jeq _ => .jeq
  | .jne _ => .jne
  | .and _ _ => .and
  | .or _ _ => .or
  | .xor _ _ => .xor
  | .not _ _ => .not
  | .shl _ _ => .shl
  | .shr _ _ => .shr
  | .mod _ _ => .mod

/-- The length of an instruction in bytes (30_encoding.md R77). -/
def Instr.length (i : Instr) : Nat := i.mnemonic.format.length

end Sys2Proof
end

