-- ==== Sys2Proof/Machine/State.lean ====
section
/-!
DEFINITION. The complete state of the core (10_state.md R20) as plain data, the state after reset (10_state.md
R42), and the reasons a step could stop without a next state.
-/

namespace Sys2Proof.Machine

/-- The register file: eight bytes (10_state.md R21). -/
structure RegFile where
  r0 : Byte
  r1 : Byte
  r2 : Byte
  r3 : Byte
  r4 : Byte
  r5 : Byte
  r6 : Byte
  r7 : Byte
  deriving DecidableEq, Repr

/-- The tri-state equality flag (10_state.md R30). -/
inductive Flag where
  /-- no CMP has executed since reset -/
  | unset
  /-- the last CMP found its operands equal -/
  | equal
  /-- the last CMP found its operands unequal -/
  | unequal
  deriving DecidableEq, Repr

/-- The engine's control state (10_state.md R33). -/
inductive Phase where
  | idle | running | halted | faulted
  deriving DecidableEq, Repr

/-- `halt_cause` (10_state.md R37). -/
inductive HaltCause where
  /-- not halted -/
  | none
  /-- the HLT instruction executed -/
  | hlt
  /-- MOD found a zero divisor -/
  | modZero
  deriving DecidableEq, Repr

/-- `fault_cause` (60_exceptions.md R177). -/
inductive FaultCause where
  | none
  | unknownOpcode
  | memBounds
  | regBounds
  | retAddrOverflow
  /-- reserved, never raised (60_exceptions.md R175; log entry 23) -/
  | unsupportedAluOp
  deriving DecidableEq, Repr

/-- Memory: the cells that do not hold `Config.memReset`, by strictly rising address. Every other address reads
as `Config.memReset` (20_memory.md R50, 10_state.md R42). -/
abbrev Memory := List Host.Cell

/-- The canonical form of a memory: addresses inside the 256 cells, strictly rising, no entry equal to what an
unlisted address reads as. -/
def Memory.wf : Memory → Bool
  | [] => true
  | (a, v) :: rest =>
    decide (a < Config.memSize) && decide (v ≠ Config.memReset) && rest.all (fun c => decide (a < c.1))
      && Memory.wf rest

/-- The complete state of the core: 10_state.md R20, field by field. -/
structure State where
  /-- `mem[0..255]` (20_memory.md R50) -/
  mem : Memory
  /-- `x[0..7]`, `x[7]` is SP (R21, R22) -/
  regs : RegFile
  /-- the program counter, values 0 to 256 (R26) -/
  pc : Word9
  /-- the equality flag (R30) -/
  fl : Flag
  /-- the engine's control state; the running flag is `phase = .running` (R33) -/
  phase : Phase
  /-- the opcode byte most recently fetched (R36) -/
  ir : Byte
  /-- why the engine halted (R37) -/
  haltCause : HaltCause
  /-- which fault was raised (60_exceptions.md R177) -/
  faultCause : FaultCause
  /-- the value that identifies the fault (60_exceptions.md R177) -/
  faultInfo : Word9
  /-- everything PRN has printed, oldest first (R38) -/
  out : List Byte
  deriving DecidableEq, Repr

/-- The register file after reset: R0 to R6 zero, SP 0xF4 (10_state.md R42; log entry 1). -/
def RegFile.reset : RegFile where
  r0 := Config.gprReset
  r1 := Config.gprReset
  r2 := Config.gprReset
  r3 := Config.gprReset
  r4 := Config.gprReset
  r5 := Config.gprReset
  r6 := Config.gprReset
  r7 := Config.spReset

/-- The state right after reset (10_state.md R42, 70_reset_and_hazards.md R200): phase IDLE, nothing loaded. -/
def State.reset : State where
  mem := []
  regs := RegFile.reset
  pc := Config.pcReset
  fl := .unset
  phase := .idle
  ir := Config.irReset
  haltCause := .none
  faultCause := .none
  faultInfo := 0#9
  out := []

/-- The faults that stop the model without a next state: there are none. Every fault of the spec has an entry
the spec describes (60_exceptions.md R179), so raising one is a next state, in phase FAULTED. Nobody raises a
value of this type; safe (log entry 10). -/
inductive Fault where
  deriving DecidableEq, Repr

/-- The refusals of the model. -/
inductive Refusal where
  /-- An instruction that has no meaning yet. Raised only by an arm of `exec` rejected by name; no arm is.
  Safe. -/
  | notModelled (mnemonic : String)
  /-- Raised by the host's `load` (not by any instruction) for an image of more than 256 bytes, which
  "is not loadable" (70_reset_and_hazards.md R203; log entry 16). Safe. -/
  | imageTooLong (length : Nat)
  deriving DecidableEq, Repr

/-- What a step, a meaning or a host operation answers. -/
abbrev Result := Host.Outcome State Fault Refusal

end Sys2Proof.Machine
end

