-- ==== Sys2Proof/Machine/Flags.lean ====
section
/-!
DEFINITION. The one condition flag: what CMP writes, and what JEQ and JNE test (10_state.md R30 to R32,
41_alu.md R113, 44_control.md R156).
-/

namespace Sys2Proof.Machine

/-- The flag CMP writes: equality of the two 8-bit values, never unset (41_alu.md R113). -/
def compareFlag (x y : Byte) : Flag := if x = y then .equal else .unequal

/-- JEQ jumps exactly when the flag is TRUE; an unset flag falls through (44_control.md R156). -/
def Flag.takesJeq : Flag → Bool
  | .equal => true
  | .unset => false
  | .unequal => false

/-- JNE jumps exactly when the flag is FALSE; an unset flag falls through (44_control.md R156). -/
def Flag.takesJne : Flag → Bool
  | .unequal => true
  | .unset => false
  | .equal => false

/-- The two bits `V E` of the flag, `V` the higher (10_state.md R32, decision D16). -/
def Flag.bits : Flag → BitVec 2
  | .unset => 0b00#2
  | .unequal => 0b10#2
  | .equal => 0b11#2

end Sys2Proof.Machine
end

