-- ==== Sys2Proof/Machine/Ops.lean ====
section
/-!
DEFINITION. The named operations every meaning is built from: register, memory, pc, flag and output access,
halting, and taking a fault. They are the primitives of 00_scope.md section 6.
-/

namespace Sys2Proof.Machine

/-! ## Registers (10_state.md R21 to R24) -/

/-- The value of a register. -/
def RegFile.get (f : RegFile) : Reg → Byte
  | .r0 => f.r0
  | .r1 => f.r1
  | .r2 => f.r2
  | .r3 => f.r3
  | .r4 => f.r4
  | .r5 => f.r5
  | .r6 => f.r6
  | .r7 => f.r7

/-- The register file with one register replaced. No register is hardwired (10_state.md R24). -/
def RegFile.set (f : RegFile) (r : Reg) (v : Byte) : RegFile :=
  match r with
  | .r0 => { f with r0 := v }
  | .r1 => { f with r1 := v }
  | .r2 => { f with r2 := v }
  | .r3 => { f with r3 := v }
  | .r4 => { f with r4 := v }
  | .r5 => { f with r5 := v }
  | .r6 => { f with r6 := v }
  | .r7 => { f with r7 := v }

/-- `x[i]` -/
def State.reg (s : State) (r : Reg) : Byte := s.regs.get r

/-- `x[i] <- v` -/
def State.setReg (s : State) (r : Reg) (v : Byte) : State := { s with regs := s.regs.set r v }

/-! ## Memory (20_memory.md R50 to R57) -/

/-- The byte at an address; an unlisted address reads as `Config.memReset`. -/
def Memory.read (m : Memory) (addr : Nat) : Byte :=
  match m with
  | [] => Config.memReset
  | (k, v) :: rest => if k = addr then v else Memory.read rest addr

/-- List a byte that differs from `Config.memReset`, keeping the addresses in order. -/
def Memory.insert (m : Memory) (addr : Nat) (v : Byte) : Memory :=
  match m with
  | [] => [(addr, v)]
  | (k, w) :: rest =>
    if addr < k then (addr, v) :: (k, w) :: rest
    else if addr = k then (addr, v) :: rest
    else (k, w) :: Memory.insert rest addr v

/-- No longer list an address. -/
def Memory.erase (m : Memory) (addr : Nat) : Memory := m.filter (fun c => decide (c.1 ≠ addr))

/-- Store a byte, in canonical form: a byte equal to `Config.memReset` is not listed. -/
def Memory.write (m : Memory) (addr : Nat) (v : Byte) : Memory :=
  if v = Config.memReset then m.erase addr else m.insert addr v

/-- The byte at an address of the machine, none above `Config.addrMax` (20_memory.md R56). -/
def Memory.read? (m : Memory) (addr : Nat) : Option Byte :=
  if addr ≤ Config.addrMax then some (m.read addr) else none

/-- The state with one memory byte stored. -/
def State.storeByte (s : State) (addr : Nat) (v : Byte) : State := { s with mem := s.mem.write addr v }

/-! ## Program counter, flag, instruction register, output, halting -/

/-- `pc <- t` (10_state.md R28) -/
def State.setPc (s : State) (t : Word9) : State := { s with pc := t }

/-- `pc <- pc + L`: the sequential successor (10_state.md R28, 40_engine_cycle.md R100). -/
def State.advance (s : State) (len : Nat) : State := s.setPc (s.pc + BitVec.ofNat 9 len)

/-- `pc <- zext_9(v)`: a branch to an 8-bit target (10_state.md R28, 44_control.md R155). -/
def State.jumpTo (s : State) (target : Byte) : State := s.setPc (zext9 target)

/-- `fl <- v` (10_state.md R31) -/
def State.setFl (s : State) (v : Flag) : State := { s with fl := v }

/-- `ir <- op` (10_state.md R36) -/
def State.setIr (s : State) (op : Byte) : State := { s with ir := op }

/-- `Out(v)`: append to the console output stream (10_state.md R38). -/
def State.emit (s : State) (v : Byte) : State := { s with out := s.out ++ [v] }

/-- `Halt(cause)` (10_state.md R34) -/
def State.halt (s : State) (c : HaltCause) : State := { s with phase := .halted, haltCause := c }

/-! ## Taking a fault (60_exceptions.md R179)

There is no return from a fault: FAULTED is terminal and only reset leaves it (60_exceptions.md R180). -/

/-- `raise F(info)`: fault entry, and all of it. The pc is not written and nothing is saved elsewhere. -/
def State.raise (s : State) (f : FaultCause) (info : Word9) : State :=
  { s with phase := .faulted, faultCause := f, faultInfo := info }

/-- An access outside the address space: `raise MEM_BOUNDS(addr)` (60_exceptions.md R172). -/
def State.raiseMemBounds (s : State) (addr : Nat) : State := s.raise .memBounds (BitVec.ofNat 9 addr)

/-- `MemRead(addr, 1)`: go on with the byte, or raise MEM_BOUNDS (20_memory.md R56). -/
def memRead (s : State) (addr : Nat) (k : Byte → Result) : Result :=
  match s.mem.read? addr with
  | some v => k v
  | none => .next (s.raiseMemBounds addr)

/-- `MemWrite(addr, 1, v)`: go on with the byte stored, or raise MEM_BOUNDS (20_memory.md R57). -/
def memWrite (s : State) (addr : Nat) (v : Byte) (k : State → Result) : Result :=
  if addr ≤ Config.addrMax then k (s.storeByte addr v) else .next (s.raiseMemBounds addr)

/-! ## The stack discipline (43_stack.md R140, R143) -/

/-- The cell the stack pointer addresses. -/
def State.stackAddr (s : State) : Nat := (s.reg .sp).toNat

/-- `x[7] <- trunc8(x[7] - 1)`: a push first decrements SP, modulo 256. -/
def State.decSp (s : State) : State := s.setReg .sp (s.reg .sp - 1#8)

/-- `x[7] <- trunc8(x[7] + 1)`: a pop ends by incrementing SP, modulo 256. -/
def State.incSp (s : State) : State := s.setReg .sp (s.reg .sp + 1#8)

end Sys2Proof.Machine
end

