-- ==== Sys2Proof/Machine/Operands.lean ====
section
/-!
DEFINITION. The operand forms: a register operand byte (checked, 30_encoding.md R73), one or two of them in the
order of 40_engine_cycle.md R94. The other two operand bytes, LDI's immediate and NOT's pad byte, are taken as
they stand (R74, R75) and need no operation.
-/

namespace Sys2Proof.Machine

/-- The register a byte names, none when it is above 7. The index is never reduced modulo 8 (10_state.md R25). -/
def regIdx (b : Byte) : Option Reg :=
  match b.toNat with
  | 0 => some .r0
  | 1 => some .r1
  | 2 => some .r2
  | 3 => some .r3
  | 4 => some .r4
  | 5 => some .r5
  | 6 => some .r6
  | 7 => some .r7
  | _ => none

/-- `RegIdx(byte)`: go on with the register, or raise REG_BOUNDS(byte) with no other effect (30_encoding.md R73,
60_exceptions.md R173; log entry 5). -/
def withReg (b : Byte) (s : State) (k : Reg → Result) : Result :=
  match regIdx b with
  | some r => k r
  | none => .next (s.raise .regBounds (zext9 b))

/-- Both register operands of format F2R: `a` is checked first, then `b` (40_engine_cycle.md R94). -/
def withRegs (a b : Byte) (s : State) (k : Reg → Reg → Result) : Result :=
  withReg a s fun ra => withReg b s fun rb => k ra rb

end Sys2Proof.Machine
end

