-- ==== Sys2Proof/Machine/Alu.lean ====
section
/-!
DEFINITION. The ALU and the meanings of its ten instructions (41_alu.md). Results are computed exactly on
natural numbers and cut to 8 bits at the end (R121).
-/

namespace Sys2Proof.Machine

/-- The ALU: a pure function of the operation and the two source values (41_alu.md R110). MOD is asked only with
a non-zero divisor (R120). -/
def alu (op : AluOp) (x y : Byte) : Byte :=
  match op with
  | .add => trunc8 (x.toNat + y.toNat)
  | .mul => trunc8 (x.toNat * y.toNat)
  | .and => x &&& y
  | .or => x ||| y
  | .xor => x ^^^ y
  | .not => trunc8 (255 - x.toNat)
  | .shl => trunc8 (x.toNat <<< y.toNat)
  | .shr => trunc8 (x.toNat >>> y.toNat)
  | .mod => trunc8 (x.toNat % y.toNat)

/-- Write an ALU result to register `a` and advance by 3; both sources are read first (41_alu.md R110). -/
def State.aluTo (s : State) (op : AluOp) (ra rb : Reg) : State :=
  (s.setReg ra (alu op (s.reg ra) (s.reg rb))).advance 3

/-- The common form of the ALU instructions with two register operands. -/
def aluRegs (op : AluOp) (a b : Byte) (s : State) : Result :=
  withRegs a b s fun ra rb => .next (s.aluTo op ra rb)

/-- ADD (41_alu.md R111). -/
def execAdd (a b : Byte) (s : State) : Result := aluRegs .add a b s

/-- MUL (41_alu.md R112). -/
def execMul (a b : Byte) (s : State) : Result := aluRegs .mul a b s

/-- CMP: writes only the flag (41_alu.md R113). -/
def execCmp (a b : Byte) (s : State) : Result :=
  withRegs a b s fun ra rb => .next ((s.setFl (compareFlag (s.reg ra) (s.reg rb))).advance 3)

/-- AND (41_alu.md R114). -/
def execAnd (a b : Byte) (s : State) : Result := aluRegs .and a b s

/-- OR (41_alu.md R115). -/
def execOr (a b : Byte) (s : State) : Result := aluRegs .or a b s

/-- XOR (41_alu.md R116). -/
def execXor (a b : Byte) (s : State) : Result := aluRegs .xor a b s

/-- NOT: one register operand; the pad byte has been fetched and has no effect (41_alu.md R117; log entry 6). -/
def execNot (a _pad : Byte) (s : State) : Result := withReg a s fun ra => .next (s.aluTo .not ra ra)

/-- SHL by the whole value of register `b` (41_alu.md R118; log entry 18). -/
def execShl (a b : Byte) (s : State) : Result := aluRegs .shl a b s

/-- SHR, logical, by the whole value of register `b` (41_alu.md R119; log entry 18). -/
def execShr (a b : Byte) (s : State) : Result := aluRegs .shr a b s

/-- MOD: the remainder, or a halt with the pc one past the opcode when the divisor is zero (41_alu.md R120; log
entry 22). -/
def execMod (a b : Byte) (s : State) : Result :=
  withRegs a b s fun ra rb =>
    if s.reg rb = 0#8 then .next ((s.advance 1).halt .modZero) else .next (s.aluTo .mod ra rb)

end Sys2Proof.Machine
end

