-- ==== Sys2Proof/Machine/Control.lean ====
section
/-!
DEFINITION. The meanings of CALL, RET, JMP, JEQ and JNE (44_control.md).
-/

namespace Sys2Proof.Machine

/-- CALL's return address: the address two past its opcode, an unbounded sum (44_control.md R150). -/
def State.returnAddr (s : State) : Nat := s.pc.toNat + 2

/-- CALL: raise RET_ADDR_OVERFLOW before any write when the return address is no address; else push it and jump
to the register, read after SP is decremented (44_control.md R150; log entries 7 and 9). -/
def execCall (a : Byte) (s : State) : Result :=
  withReg a s fun ra =>
    if Config.addrMax < s.returnAddr then .next (s.raise .retAddrOverflow (BitVec.ofNat 9 s.returnAddr))
    else
      memWrite s.decSp s.decSp.stackAddr (trunc8 s.returnAddr) fun s' => .next (s'.jumpTo (s'.reg ra))

/-- RET: the byte SP addresses becomes the pc, and SP is incremented (44_control.md R151). -/
def execRet (s : State) : Result := memRead s s.stackAddr fun t => .next (s.incSp.jumpTo t)

/-- JMP (44_control.md R152). -/
def execJmp (a : Byte) (s : State) : Result := withReg a s fun ra => .next (s.jumpTo (s.reg ra))

/-- A conditional jump: the target register when taken, else the next instruction (44_control.md R156). -/
def jumpIf (taken : Bool) (a : Byte) (s : State) : Result :=
  withReg a s fun ra => .next (if taken then s.jumpTo (s.reg ra) else s.advance 2)

/-- JEQ (44_control.md R153). -/
def execJeq (a : Byte) (s : State) : Result := jumpIf s.fl.takesJeq a s

/-- JNE (44_control.md R154). -/
def execJne (a : Byte) (s : State) : Result := jumpIf s.fl.takesJne a s

end Sys2Proof.Machine
end

