-- ==== Sys2Proof/Machine/Stack.lean ====
section
/-!
DEFINITION. The meanings of PUSH and POP (43_stack.md).
-/

namespace Sys2Proof.Machine

/-- PUSH: decrement SP, then store the source register, read after the decrement (43_stack.md R141, R145; log
entry 9). -/
def execPush (a : Byte) (s : State) : Result :=
  withReg a s fun ra =>
    memWrite s.decSp s.decSp.stackAddr (s.decSp.reg ra) fun s' => .next (s'.advance 2)

/-- POP: load the register from the cell SP addresses, then increment SP as it is now (43_stack.md R142, R145;
log entry 9). -/
def execPop (a : Byte) (s : State) : Result :=
  withReg a s fun ra => memRead s s.stackAddr fun v => .next ((s.setReg ra v).incSp.advance 2)

end Sys2Proof.Machine
end

