-- ==== Sys2Proof/Machine/System.lean ====
section
/-!
DEFINITION. The meanings of HLT, LDI and PRN (42_system_data.md).
-/

namespace Sys2Proof.Machine

/-- HLT (42_system_data.md R130). -/
def execHlt (s : State) : Result := .next ((s.advance 1).halt .hlt)

/-- LDI: the immediate as it stands (42_system_data.md R131). -/
def execLdi (a imm : Byte) (s : State) : Result := withReg a s fun ra => .next ((s.setReg ra imm).advance 3)

/-- PRN (42_system_data.md R132). -/
def execPrn (a : Byte) (s : State) : Result := withReg a s fun ra => .next ((s.emit (s.reg ra)).advance 2)

end Sys2Proof.Machine
end

