-- ==== Sys2Proof/WellFormed.lean ====
section
/-!
DEFINITION. Which instructions are well formed: every operand byte that the format declares a register index is
0 to 7 (30_encoding.md R71 and R73). LDI's immediate and NOT's pad byte may be any byte (R74, R75).
-/

namespace Sys2Proof

/-- The register operand bytes of an instruction, in the order they are checked: `a`, then `b`
(40_engine_cycle.md R94). -/
def Instr.regOperands : Instr → List Byte
  | .hlt | .ret => []
  | .ldi a _ | .not a _ => [a]
  | .prn a | .push a | .pop a | .call a | .jmp a | .jeq a | .jne a => [a]
  | .mul a b | .add a b | .cmp a b | .and a b | .or a b | .xor a b => [a, b]
  | .shl a b | .shr a b | .mod a b => [a, b]

/-- A byte that names a register (30_encoding.md R73). -/
def isRegIndex (b : Byte) : Bool := decide (b.toNat ≤ 7)

/-- Every register operand byte names a register. -/
def Instr.wellFormed (i : Instr) : Bool := i.regOperands.all isRegIndex

end Sys2Proof
end

