-- ==== Sys2Proof/Decode.lean ====
section
/-!
DEFINITION. The decoder, total on any list of bytes, and after it the encoder (30_encoding.md R70 to R77, R84).
The opcode byte is matched exactly against the 20 values of R76; no bit field of it is used (R72). A rejected
list is rejected by name: its opcode is unknown, or a byte of the instruction is missing.
-/

namespace Sys2Proof

/-- The opcode map: the 20 rows of 30_encoding.md R76 read from the byte, and "unknown" for the other 236
(R78, R84). -/
def decodeOpcode (op : Byte) : Option Mnemonic :=
  match op.toNat with
  | 0x01 => some .hlt
  | 0x11 => some .ret
  | 0x45 => some .push
  | 0x46 => some .pop
  | 0x47 => some .prn
  | 0x50 => some .call
  | 0x54 => some .jmp
  | 0x55 => some .jeq
  | 0x56 => some .jne
  | 0x69 => some .not
  | 0x82 => some .ldi
  | 0xA0 => some .add
  | 0xA2 => some .mul
  | 0xA4 => some .mod
  | 0xA7 => some .cmp
  | 0xA8 => some .and
  | 0xAA => some .or
  | 0xAB => some .xor
  | 0xAC => some .shl
  | 0xAD => some .shr
  | _ => none

/-- Why a list of bytes is not an instruction. -/
inductive DecodeError where
  /-- The list ends before the byte at this offset from the opcode (40_engine_cycle.md R91, R93). -/
  | missingByte (offset : Nat)
  /-- The opcode byte is none of the 20 (40_engine_cycle.md R92). -/
  | unknownOpcode (op : Byte)
  deriving DecidableEq, Repr

/-- The instruction of a mnemonic with operand bytes `a` and `b`; a byte the format lacks is not used. -/
def Mnemonic.build (m : Mnemonic) (a b : Byte) : Instr :=
  match m with
  | .hlt => .hlt
  | .ldi => .ldi a b
  | .prn => .prn a
  | .mul => .mul a b
  | .push => .push a
  | .pop => .pop a
  | .call => .call a
  | .ret => .ret
  | .add => .add a b
  | .cmp => .cmp a b
  | .jmp => .jmp a
  | .jeq => .jeq a
  | .jne => .jne a
  | .and => .and a b
  | .or => .or a b
  | .xor => .xor a b
  | .not => .not a b
  | .shl => .shl a b
  | .shr => .shr a b
  | .mod => .mod a b

/-- The operand bytes a format takes from the bytes after the opcode, with those that remain: `a` first, then
`b` (40_engine_cycle.md R93). -/
def takeOperands (f : Format) (rest : List Byte) : Except DecodeError ((Byte × Byte) × List Byte) :=
  match f, rest with
  | .f0, rest => .ok ((0#8, 0#8), rest)
  | .f1, a :: rest => .ok ((a, 0#8), rest)
  | .f2r, a :: b :: rest => .ok ((a, b), rest)
  | .f2i, a :: b :: rest => .ok ((a, b), rest)
  | .f2p, a :: b :: rest => .ok ((a, b), rest)
  | _, [] => .error (.missingByte 1)
  | _, [_] => .error (.missingByte 2)

/-- The instruction at the head of a list of bytes, with the bytes after it. -/
def decode (bytes : List Byte) : Except DecodeError (Instr × List Byte) :=
  match bytes with
  | [] => .error (.missingByte 0)
  | op :: rest =>
    match decodeOpcode op with
    | none => .error (.unknownOpcode op)
    | some m =>
      match takeOperands m.format rest with
      | .error e => .error e
      | .ok ((a, b), rest') => .ok (m.build a b, rest')

/-- The opcode byte of each mnemonic (30_encoding.md R76, column "opcode"). -/
def Mnemonic.opcode : Mnemonic → Byte
  | .hlt => 0x01#8
  | .ldi => 0x82#8
  | .prn => 0x47#8
  | .mul => 0xA2#8
  | .push => 0x45#8
  | .pop => 0x46#8
  | .call => 0x50#8
  | .ret => 0x11#8
  | .add => 0xA0#8
  | .cmp => 0xA7#8
  | .jmp => 0x54#8
  | .jeq => 0x55#8
  | .jne => 0x56#8
  | .and => 0xA8#8
  | .or => 0xAA#8
  | .xor => 0xAB#8
  | .not => 0x69#8
  | .shl => 0xAC#8
  | .shr => 0xAD#8
  | .mod => 0xA4#8

/-- The operand bytes of an instruction in the order they lie in memory (30_encoding.md R71, R81). -/
def Instr.operandBytes : Instr → List Byte
  | .hlt | .ret => []
  | .prn a | .push a | .pop a | .call a | .jmp a | .jeq a | .jne a => [a]
  | .ldi a imm => [a, imm]
  | .not a pad => [a, pad]
  | .mul a b | .add a b | .cmp a b | .and a b | .or a b | .xor a b => [a, b]
  | .shl a b | .shr a b | .mod a b => [a, b]

/-- The bytes of an instruction, opcode at the lowest address (30_encoding.md R70, R81). -/
def encode (i : Instr) : List Byte := i.mnemonic.opcode :: i.operandBytes

/-- The first `n` bytes of a number whose bit 0 is bit 0 of the first byte. -/
def bytesOfNat : Nat → Nat → List Byte
  | 0, _ => []
  | n + 1, w => trunc8 w :: bytesOfNat n (w / 256)

/-- The bytes of a table word: `nbits` bits of `w`, the bits above them 0, up to the longest instruction. -/
def tableWordBytes (nbits w : Nat) : List Byte := bytesOfNat Config.maxLength (w % 2 ^ nbits)

/-- The instruction the decoder reads from a table word, none where it refuses. -/
def decodeTableWord (nbits w : Nat) : Option Instr :=
  match decode (tableWordBytes nbits w) with
  | .ok (i, _) => some i
  | .error _ => none

end Sys2Proof
end

