-- ==== Sys2Proof/Machine/Fetch.lean ====
section
/-!
DEFINITION. Fetching: the bytes at the pc, the instruction register, and the fault a failed fetch or decode
raises (40_engine_cycle.md R91 to R93).
-/

namespace Sys2Proof.Machine

/-- The bytes an instruction at the pc may take: the cells at pc, pc + 1 and pc + 2 that exist. The additions do
not wrap (40_engine_cycle.md R93). -/
def fetchWindow (s : State) : List Byte :=
  [s.pc.toNat, s.pc.toNat + 1, s.pc.toNat + 2].filterMap s.mem.read?

/-- `ir` takes the opcode byte when the opcode fetch succeeds, and keeps its value otherwise (10_state.md R36;
log entry 12). -/
def latchOpcode (s : State) : State :=
  match s.mem.read? s.pc.toNat with
  | some op => s.setIr op
  | none => s

/-- The fault of a step whose bytes are no instruction: MEM_BOUNDS at the byte that does not exist, or
UNKNOWN_OPCODE (40_engine_cycle.md R91 to R93). -/
def fetchFault (e : DecodeError) (s : State) : State :=
  match e with
  | .missingByte offset => s.raiseMemBounds (s.pc.toNat + offset)
  | .unknownOpcode op => s.raise .unknownOpcode (zext9 op)

/-- The state with bytes stored at consecutive addresses. -/
def State.storeBytes (s : State) (addr : Nat) (bytes : List Byte) : State :=
  match bytes with
  | [] => s
  | v :: rest => (s.storeByte addr v).storeBytes (addr + 1) rest

/-- Where an instruction of any length can be placed for the next fetch: at the pc, or at address 0 when fewer
than three cells are left from the pc on (log entry 14). -/
def placeAt (s : State) : Word9 := if s.pc.toNat + Config.maxLength ≤ Config.memSize then s.pc else 0#9

end Sys2Proof.Machine
end

