-- ==== Sys2Proof/Machine/Step.lean ====
section
/-!
DEFINITION. The step: one iteration of the engine's loop (40_engine_cycle.md R90), and the placing of one
instruction for the next fetch.
-/

namespace Sys2Proof.Machine

/-- One step of a running engine: fetch, decode, check, execute, in that order (40_engine_cycle.md R90, 60_exceptions.md
R178). The order among the fetches and the decoding is `decode`'s, and the operand checks are each meaning's own
first act. -/
def runStep (s : State) : Host.Outcome State Fault Refusal :=
  match decode (fetchWindow s) with
  | .ok (i, _) => exec i (latchOpcode s)
  | .error e => .next (fetchFault e (latchOpcode s))

/-- A step is taken only in phase RUNNING; in every other phase the engine does nothing (40_engine_cycle.md R90,
10_state.md R35; log entry 13). -/
def step (s : State) : Host.Outcome State Fault Refusal :=
  match s.phase with
  | .running => runStep s
  | .idle => .next s
  | .halted => .next s
  | .faulted => .next s

/-- The state in which the very next step fetches and runs the given instruction: its bytes are stored where the
step fetches, and the engine is running. It stands for the host's load and run (log entry 14). -/
def State.withFetchWord (s : State) (nbits w : Nat) : State :=
  let placed := (s.setPc (placeAt s)).storeBytes (placeAt s).toNat (tableWordBytes nbits w)
  { placed with phase := .running }

end Sys2Proof.Machine
end

