-- ==== Sys2Proof/Machine/Assembly.lean ====
section
/-!
DEFINITION. The assembly notation of 30_encoding.md R80 and R81, as a mnemonic with its operands in encoding
order (decision D22; log entry 25). It is notation only: no step uses it.
-/

namespace Sys2Proof.Machine

/-- An operand as it is written: a register, or a number. -/
inductive AsmOperand where
  | reg (r : Reg)
  | imm (v : Byte)
  deriving DecidableEq, Repr

/-- One line of assembly. -/
structure AsmLine where
  mnemonic : Mnemonic
  operands : List AsmOperand
  deriving DecidableEq, Repr

/-- The instruction a line stands for; NOT's pad byte is 0x00; none when the operands do not suit the format
(30_encoding.md R81). -/
def assemble (l : AsmLine) : Option Instr :=
  match l.mnemonic.format, l.operands with
  | .f0, [] => some (l.mnemonic.build 0#8 0#8)
  | .f1, [.reg a] => some (l.mnemonic.build a.toByte 0#8)
  | .f2r, [.reg a, .reg b] => some (l.mnemonic.build a.toByte b.toByte)
  | .f2i, [.reg a, .imm v] => some (l.mnemonic.build a.toByte v)
  | .f2p, [.reg a] => some (l.mnemonic.build a.toByte 0#8)
  | _, _ => none

/-- The bytes of a line (30_encoding.md R81, column "bytes"). -/
def assembleBytes (l : AsmLine) : Option (List Byte) := (assemble l).map encode

/-- The line that stands for an instruction, none when a register operand byte names no register. -/
def disassemble (i : Instr) : Option AsmLine :=
  match i.mnemonic.format, i.operandBytes with
  | .f0, _ => some ⟨i.mnemonic, []⟩
  | .f1, [a] => (regIdx a).map fun ra => ⟨i.mnemonic, [.reg ra]⟩
  | .f2r, [a, b] =>
    match regIdx a, regIdx b with
    | some ra, some rb => some ⟨i.mnemonic, [.reg ra, .reg rb]⟩
    | _, _ => none
  | .f2i, [a, v] => (regIdx a).map fun ra => ⟨i.mnemonic, [.reg ra, .imm v]⟩
  | .f2p, [a, _] => (regIdx a).map fun ra => ⟨i.mnemonic, [.reg ra]⟩
  | _, _ => none

end Sys2Proof.Machine
end

