-- ==== Sys2Proof/Machine/HostOps.lean ====
section
/-!
DEFINITION. The host's operations: reset, load, run, and what it observes (70_reset_and_hazards.md R200 to R206,
60_exceptions.md R186 and R188). They are not steps: they act between steps, from outside (log entry 15).
-/

namespace Sys2Proof.Machine

/-- `reset`: allowed in any phase; nothing survives it (70_reset_and_hazards.md R200). -/
def hostReset (_s : State) : State := State.reset

/-- `load(image)`: in IDLE the image goes to the cells from 0 upward and nothing else changes; an image of more
than 256 bytes is not loadable; in any other phase the operation is ignored (70_reset_and_hazards.md R203, R205). -/
def hostLoad (image : List Byte) (s : State) : Result :=
  match s.phase with
  | .idle =>
    if image.length ≤ Config.memSize then .next (s.storeBytes 0 image) else .refused (.imageTooLong image.length)
  | .running => .next s
  | .halted => .next s
  | .faulted => .next s

/-- `run`: in IDLE the phase becomes RUNNING and nothing else changes; ignored in any other phase
(40_engine_cycle.md R97, 10_state.md R34). -/
def hostRun (s : State) : State :=
  match s.phase with
  | .idle => { s with phase := .running }
  | .running => s
  | .halted => s
  | .faulted => s

/-- The encoding of `phase` (10_state.md R33). -/
def Phase.code : Phase → BitVec 2
  | .idle => 0#2
  | .running => 1#2
  | .halted => 2#2
  | .faulted => 3#2

/-- The encoding of `halt_cause` (10_state.md R37). -/
def HaltCause.code : HaltCause → BitVec 2
  | .none => 0#2
  | .hlt => 1#2
  | .modZero => 2#2

/-- The encoding of `fault_cause` (60_exceptions.md R177). -/
def FaultCause.code : FaultCause → BitVec 3
  | .none => 0#3
  | .unknownOpcode => 1#3
  | .memBounds => 2#3
  | .regBounds => 3#3
  | .retAddrOverflow => 4#3
  | .unsupportedAluOp => 5#3

/-- The status outputs to the host (10_state.md R37 to R39). -/
structure Status where
  phase : BitVec 2
  haltCause : BitVec 2
  faultCause : BitVec 3
  faultInfo : BitVec 9
  out : List Byte
  deriving DecidableEq, Repr

/-- What a run delivers to the host (70_reset_and_hazards.md R206); registers, pc, ir, flag and memory are read
from the state itself. -/
def observe (s : State) : Status where
  phase := s.phase.code
  haltCause := s.haltCause.code
  faultCause := s.faultCause.code
  faultInfo := s.faultInfo
  out := s.out

/-- How a run ended, for the host's mapping to an exit status (60_exceptions.md R188). -/
inductive RunEnd where
  /-- the source requires a zero exit status -/
  | normal
  /-- the exit status is the host's choice, `EXIT_ON_MOD_ZERO` -/
  | zeroDivisor
  /-- the source requires a non-zero exit status -/
  | abnormal
  deriving DecidableEq, Repr

/-- The classification of 60_exceptions.md R188; none while the run has not ended. -/
def runEnd (s : State) : Option RunEnd :=
  match s.phase, s.haltCause with
  | .halted, .hlt => some .normal
  | .halted, .modZero => some .zeroDivisor
  | .faulted, _ => some .abnormal
  | _, _ => none

end Sys2Proof.Machine
end

