-- ==== Sys2Proof/Safety.lean ====
section
/-!
DEFINITION. The vocabulary of claims: what an answer completes with, what two states share (frames), what a fault
entry is, the first failing check of a step, the invariant of the machine, and which states are reachable.
-/

namespace Sys2Proof.Machine

/-! ## Answers -/

/-- The answer is a next state, and that state satisfies `P`. -/
def Completes (o : Result) (P : State → Prop) : Prop := ∃ t, o = .next t ∧ P t

/-- The answer with its next state, if it is one, changed by `g`. -/
def mapNext (g : State → State) (o : Result) : Result :=
  match o with
  | .next t => .next (g t)
  | .fault r => .fault r
  | .refused r => .refused r

/-- Carry out instructions one after the other, each by its own meaning. -/
def execAll : List Instr → State → Result
  | [], s => .next s
  | i :: rest, s =>
    match exec i s with
    | .next t => execAll rest t
    | .fault r => .fault r
    | .refused r => .refused r

/-! ## Frames: what a next state `t` shares with the state `s` before -/

/-- The model's read of one byte. -/
def State.byteAt (s : State) (addr : Nat) : Byte := s.mem.read addr

/-- Every byte of memory reads as before. -/
def SameMemory (s t : State) : Prop := ∀ n, t.byteAt n = s.byteAt n

/-- Every byte of memory but the one at `addr` reads as before. -/
def SameMemoryBut (addr : Nat) (s t : State) : Prop := ∀ n, n ≠ addr → t.byteAt n = s.byteAt n

/-- Every register but those listed reads as before. -/
def SameRegsBut (rs : List Reg) (s t : State) : Prop := ∀ r, r ∉ rs → t.reg r = s.reg r

/-- The instruction register and the fault registers are as before. -/
def SameFaultRecord (s t : State) : Prop := t.ir = s.ir ∧ t.faultCause = s.faultCause ∧ t.faultInfo = s.faultInfo

/-- The engine's control state and all its status registers are as before. -/
def SameEngine (s t : State) : Prop := t.phase = s.phase ∧ t.haltCause = s.haltCause ∧ SameFaultRecord s t

/-- Only register `ra` and the pc changed, and the pc moved on by 3: the frame of an instruction of three bytes
that writes one register. -/
def OnlyRegAdvance3 (ra : Reg) (s t : State) : Prop :=
  SameRegsBut [ra] s t ∧ t.pc = s.pc + 3#9 ∧ t.fl = s.fl ∧ SameMemory s t ∧ t.out = s.out ∧ SameEngine s t

/-- Only the pc changed. -/
def OnlyPc (s t : State) : Prop :=
  SameRegsBut [] s t ∧ t.fl = s.fl ∧ SameMemory s t ∧ t.out = s.out ∧ SameEngine s t

/-- The engine halted with cause `c`, the pc one further, everything else as before. -/
def HaltsOnePast (c : HaltCause) (s t : State) : Prop :=
  t.phase = .halted ∧ t.haltCause = c ∧ t.pc = s.pc + 1#9 ∧ SameRegsBut [] s t ∧ t.fl = s.fl ∧ SameMemory s t ∧
    t.out = s.out ∧ SameFaultRecord s t

/-- Fault entry (60_exceptions.md R179): the phase, the cause and the recorded value, and nothing else. -/
def FaultEntry (f : FaultCause) (info : Nat) (s t : State) : Prop :=
  t = { s with phase := .faulted, faultCause := f, faultInfo := BitVec.ofNat 9 info }

/-- What a program can see of a state: memory, registers, pc, flag and whether the engine runs. The output stream
and the engine's status registers are left out. -/
def SameForProgram (s t : State) : Prop :=
  t.mem = s.mem ∧ t.regs = s.regs ∧ t.pc = s.pc ∧ t.fl = s.fl ∧ t.phase = s.phase

/-! ## The known opcodes -/

/-- The 20 opcode values in increasing order, as 30_encoding.md R78 lists them. -/
def knownOpcodes : List Byte :=
  [0x01#8, 0x11#8, 0x45#8, 0x46#8, 0x47#8, 0x50#8, 0x54#8, 0x55#8, 0x56#8, 0x69#8, 0x82#8, 0xA0#8, 0xA2#8, 0xA4#8,
    0xA7#8, 0xA8#8, 0xAA#8, 0xAB#8, 0xAC#8, 0xAD#8]

/-! ## Bytes that instructions write and fetches read -/

/-- The instruction stores `v` on the stack: a PUSH its register, read after the decrement; a CALL with a legal return
address that address (43_stack.md R141 and R145, 44_control.md R150). -/
def PushesByte (i : Instr) (s : State) (v : Byte) : Prop :=
  (∃ ra : Reg, i = .push ra.toByte ∧ v = if ra = .sp then s.reg .sp - 1#8 else s.reg ra) ∨
    ∃ ra : Reg, i = .call ra.toByte ∧ s.pc.toNat ≤ 253 ∧ v.toNat = s.pc.toNat + 2

/-- The step from `t` takes `v` as its opcode byte: `ir` holds it afterwards; the instruction with that opcode whose
operand bytes lie after it is executed; a byte that is no opcode raises UNKNOWN_OPCODE and is recorded. -/
def StepReadsOpcode (v : Byte) (t : State) : Prop :=
  Completes (step t) (fun u => u.ir = v) ∧
    (∀ i : Instr,
      i.mnemonic.opcode = v → t.pc.toNat + i.length ≤ 256 →
        (∀ k, k < i.operandBytes.length → i.operandBytes[k]? = some (t.byteAt (t.pc.toNat + 1 + k))) →
          step t = exec i (t.setIr v)) ∧
    (v ∉ knownOpcodes → Completes (step t) (FaultEntry .unknownOpcode v.toNat (t.setIr v)))

/-! ## The first failing check of a step (60_exceptions.md R178), read off the bytes in memory -/

/-- Does the format declare operand byte `a` a register index (30_encoding.md R71)? -/
def Format.checksA : Format → Bool
  | .f0 => false
  | .f1 => true
  | .f2r => true
  | .f2i => true
  | .f2p => true

/-- Does the format declare operand byte `b` a register index (30_encoding.md R71)? -/
def Format.checksB : Format → Bool
  | .f0 => false
  | .f1 => false
  | .f2r => true
  | .f2i => false
  | .f2p => false

/-- The cause and recorded value of the first check that fails, in the order of 60_exceptions.md R178. -/
def firstFault (s : State) : Option (FaultCause × Nat) :=
  let pc := s.pc.toNat
  let op := s.byteAt pc
  let a := s.byteAt (pc + 1)
  let b := s.byteAt (pc + 2)
  if 255 < pc then some (.memBounds, pc)
  else
    match decodeOpcode op with
    | none => some (.unknownOpcode, op.toNat)
    | some m =>
      if 2 ≤ m.format.length ∧ 255 < pc + 1 then some (.memBounds, pc + 1)
      else if m.format.length = 3 ∧ 255 < pc + 2 then some (.memBounds, pc + 2)
      else if Format.checksA m.format = true ∧ 7 < a.toNat then some (.regBounds, a.toNat)
      else if Format.checksB m.format = true ∧ 7 < b.toNat then some (.regBounds, b.toNat)
      else if m = .call ∧ 255 < pc + 2 then some (.retAddrOverflow, pc + 2)
      else none

/-! ## The invariant -/

/-- The fault registers hold what 60_exceptions.md R177 says for their cause. -/
def FaultRecord (s : State) : Prop :=
  match s.faultCause with
  | .none => s.faultInfo = 0#9
  | .unknownOpcode => s.faultInfo = zext9 s.ir ∧ decodeOpcode s.ir = none ∧ s.pc.toNat ≤ 255
  | .memBounds => s.faultInfo = 256#9 ∧ 254 ≤ s.pc.toNat
  | .regBounds => 8 ≤ s.faultInfo.toNat ∧ s.faultInfo.toNat ≤ 255 ∧ s.pc.toNat ≤ 254
  | .retAddrOverflow => s.faultInfo = 256#9 ∧ s.pc = 254#9 ∧ s.ir = Mnemonic.opcode .call
  | .unsupportedAluOp => False

/-- The invariant of the machine: memory is in canonical form; the pc is 0 to 256; a halt cause is recorded exactly
when halted and a fault cause exactly when faulted, with its value; an idle engine is as reset left it but for
memory. -/
def Inv (s : State) : Prop :=
  s.mem.wf = true ∧ s.pc.toNat ≤ 256 ∧ (s.phase = .halted ↔ s.haltCause ≠ .none) ∧
    (s.phase = .faulted ↔ s.faultCause ≠ .none) ∧ FaultRecord s ∧
    (s.phase = .idle → s = { State.reset with mem := s.mem })

/-! ## Runs (70_reset_and_hazards.md R202, R206) -/

/-- The run has ended (70_reset_and_hazards.md R206). -/
def State.ended (s : State) : Prop := s.phase = .halted ∨ s.phase = .faulted

/-- The states the host and the engine can bring about: reset, then loads, run and steps. -/
inductive Reachable : State → Prop where
  | reset : Reachable State.reset
  | load (image : List Byte) (s t : State) : Reachable s → hostLoad image s = .next t → Reachable t
  | run (s : State) : Reachable s → Reachable (hostRun s)
  | step (s t : State) : Reachable s → step s = .next t → Reachable t

end Sys2Proof.Machine
end

