-- ==== Sys2Proof/Certificates/Slice0/Obligations.lean ====
section
/-!
DEFINITION. The statements for the provers. Each docstring names the rule or section of spec/ it formalises; where a
clause rests on one of the spec's own decisions (D<n> of 92_eei_decisions.md) or on a choice of the model, it says so
with the log entry.
-/

open Sys2Proof Sys2Proof.Machine

/-! ## Encoding and decoding -/

/-- Decoding accepts exactly the encodings: a list of bytes decodes to `i` with `rest` left over if and only if it is
the encoding of `i` followed by `rest`. It covers every instruction, well formed or not, with every operand byte
(30_encoding.md sections 1 and 3). -/
def Obligations.DecodeAcceptsExactlyTheEncodings : Prop :=
  ∀ (bytes : List Byte) (i : Instr) (rest : List Byte),
    decode bytes = .ok (i, rest) ↔ bytes = encode i ++ rest

/-- The opcode byte alone determines the length, and the bytes of an instruction are its opcode and its operands in
the order of the assembly table: sample words written out from 30_encoding.md section 5 and 95_test_vectors.md. -/
def Obligations.SampleWordsDecode : Prop :=
  decode [0x82#8, 0x00#8, 0x08#8] = .ok (.ldi 0#8 8#8, []) ∧
    decode [0x01#8] = .ok (.hlt, []) ∧
    decode [0x47#8, 0x03#8] = .ok (.prn 3#8, []) ∧
    decode [0xA0#8, 0x02#8, 0x05#8] = .ok (.add 2#8 5#8, []) ∧
    decode [0x69#8, 0x02#8, 0xFF#8] = .ok (.not 2#8 0xFF#8, []) ∧
    decode [0x45#8, 0x07#8] = .ok (.push 7#8, []) ∧
    decode [0x50#8, 0x01#8] = .ok (.call 1#8, []) ∧
    decode [0x56#8, 0x04#8] = .ok (.jne 4#8, [])

/-- The opcode bytes the decoder knows are exactly the 20 values 30_encoding.md section 4 lists in increasing order;
each of the other 236 bytes is unknown. -/
def Obligations.ExactlyTwentyOpcodesAreKnown : Prop :=
  knownOpcodes.length = 20 ∧ ∀ op : Byte, (decodeOpcode op).isSome = true ↔ op ∈ knownOpcodes

/-- Assembling a line and disassembling the instruction gives the line back (30_encoding.md section 5; the notation
is the spec's decision D22, log entry 25). -/
def Obligations.DisassemblyInvertsAssembly : Prop :=
  ∀ (l : AsmLine) (i : Instr), assemble l = some i → disassemble i = some l ∧ i.wellFormed = true

/-! ## The step -/

/-- A step of a running engine whose fetched bytes decode to `i` executes `i` in the state whose instruction
register holds `i`'s opcode, and nothing else is done around it: no increment of the pc, no delay
(40_engine_cycle.md section 1). -/
def Obligations.StepRunsTheDecodedInstruction : Prop :=
  ∀ (s : State) (i : Instr) (rest : List Byte),
    s.phase = .running → decode (fetchWindow s) = .ok (i, rest) → step s = exec i (s.setIr i.mnemonic.opcode)

/-- When the cells from the pc upward hold the encoding of `i`, all of it at addresses up to 255, a running engine's
step executes `i`: opcode, operand `a`, operand `b` at consecutive increasing addresses, nothing between them
(40_engine_cycle.md section 1, 20_memory.md section 2). -/
def Obligations.StepRunsTheBytesAtThePc : Prop :=
  ∀ (s : State) (i : Instr),
    s.phase = .running → s.pc.toNat + (encode i).length ≤ 256 →
      (∀ k, k < (encode i).length → (encode i)[k]? = some (s.byteAt (s.pc.toNat + k))) →
        step s = exec i (s.setIr i.mnemonic.opcode)

/-- The fault of an unknown opcode: a byte at the pc that is none of the 20 opcodes raises UNKNOWN_OPCODE, recording
the byte in `fault_info` and `ir`, with the pc left at the byte and nothing else changed. A memory that was never
loaded faults this way at once, with op 0x00 at pc 0 (60_exceptions.md section 1; the record and the precision are
the spec's decisions D10 and D13, log entries 11 and 21). -/
def Obligations.UnknownOpcodeRecordsTheByte : Prop :=
  (∀ s : State,
    s.phase = .running → s.pc.toNat ≤ 255 → s.byteAt s.pc.toNat ∉ knownOpcodes →
      Completes (step s)
        (fun t => FaultEntry .unknownOpcode (s.byteAt s.pc.toNat).toNat (s.setIr (s.byteAt s.pc.toNat)) t ∧
          t.pc = s.pc)) ∧
    Completes (step (hostRun State.reset)) (FaultEntry .unknownOpcode 0x00 (hostRun State.reset))

/-- A fetch past address 255 raises MEM_BOUNDS with the address and never wraps: at pc 256 the opcode fetch, with
`ir` kept; at pc 255 the fetch of operand `a` of a longer instruction; at pc 254 the fetch of operand `b` of a
three-byte one (40_engine_cycle.md section 1; the spec's decisions D1 and D2, log entry 3). -/
def Obligations.FetchPastTheTopFaults : Prop :=
  ∀ s : State,
    s.phase = .running →
      (s.pc.toNat = 256 → Completes (step s) (FaultEntry .memBounds 256 s)) ∧
        ∀ m : Mnemonic,
          decodeOpcode (s.byteAt s.pc.toNat) = some m →
            (s.pc.toNat = 255 → 2 ≤ m.format.length →
              Completes (step s) (FaultEntry .memBounds 256 (s.setIr m.opcode))) ∧
              (s.pc.toNat = 254 → m.format.length = 3 →
                Completes (step s) (FaultEntry .memBounds 256 (s.setIr m.opcode)))

/-- State changes by executing instructions only in phase RUNNING: in every other phase a step changes nothing
(10_state.md section 5, 40_engine_cycle.md section 1; log entry 13). -/
def Obligations.StepOutsideRunningChangesNothing : Prop :=
  ∀ s : State, s.phase ≠ .running → step s = .next s

/-- Once the run has ended, any number of steps leaves the end state as it is (10_state.md section 5,
70_reset_and_hazards.md section 3; log entry 13). -/
def Obligations.EndedRunsStayAsTheyAre : Prop :=
  ∀ (n : Nat) (s : State), s.ended → core.run n s = .next s

/-- Whatever memory, registers and pc hold, a step of any state answers a next state: the run is always well defined
(60_exceptions.md section 5; that the spec's faults are next states is log entry 10). -/
def Obligations.EveryStepAnswersANextState : Prop := ∀ s : State, ∃ t, step s = .next t

/-- After a step of a running engine `ir` holds the opcode byte just fetched, or its old value when the opcode fetch
itself faulted (10_state.md section 6; decision D17, log entry 12). -/
def Obligations.InstructionRegisterHoldsTheLastOpcode : Prop :=
  ∀ s t : State,
    s.phase = .running → step s = .next t → t.ir = if s.pc.toNat ≤ 255 then s.byteAt s.pc.toNat else s.ir

/-! ## ALU instructions -/

/-- ADD and MUL: the sum and the product modulo 256 in register `a`, the pc on by 3, nothing else changed: no flag,
no other register, no memory (41_alu.md R111, R112). -/
def Obligations.AddMulWriteTheResultModulo256 : Prop :=
  ∀ (s : State) (ra rb : Reg),
    Completes (exec (.add ra.toByte rb.toByte) s)
      (fun t => (t.reg ra).toNat = ((s.reg ra).toNat + (s.reg rb).toNat) % 256 ∧ OnlyRegAdvance3 ra s t) ∧
      Completes (exec (.mul ra.toByte rb.toByte) s)
        (fun t => (t.reg ra).toNat = ((s.reg ra).toNat * (s.reg rb).toNat) % 256 ∧ OnlyRegAdvance3 ra s t)

/-- AND, OR, XOR: every bit of register `a` is the operation on the two bits, the pc on by 3, nothing else changed
(41_alu.md R114, R115, R116). -/
def Obligations.LogicActsBitByBit : Prop :=
  ∀ (s : State) (ra rb : Reg),
    Completes (exec (.and ra.toByte rb.toByte) s)
      (fun t => (∀ n, n < 8 → (t.reg ra).getLsbD n = ((s.reg ra).getLsbD n && (s.reg rb).getLsbD n)) ∧
        OnlyRegAdvance3 ra s t) ∧
      Completes (exec (.or ra.toByte rb.toByte) s)
        (fun t => (∀ n, n < 8 → (t.reg ra).getLsbD n = ((s.reg ra).getLsbD n || (s.reg rb).getLsbD n)) ∧
          OnlyRegAdvance3 ra s t) ∧
      Completes (exec (.xor ra.toByte rb.toByte) s)
        (fun t => (∀ n, n < 8 → (t.reg ra).getLsbD n = ((s.reg ra).getLsbD n ^^ (s.reg rb).getLsbD n)) ∧
          OnlyRegAdvance3 ra s t)

/-- NOT: every bit of register `a` inverted, 255 minus the value, whatever the pad byte is; the pc on by 3, nothing
else changed (41_alu.md section 2; that the pad byte may be any byte is the spec's decision D5, log entry 6). -/
def Obligations.NotInvertsEveryBit : Prop :=
  ∀ (s : State) (ra : Reg) (pad : Byte),
    Completes (exec (.not ra.toByte pad) s)
      (fun t => (t.reg ra).toNat = 255 - (s.reg ra).toNat ∧
        (∀ n, n < 8 → (t.reg ra).getLsbD n = !(s.reg ra).getLsbD n) ∧ OnlyRegAdvance3 ra s t)

/-- CMP writes the flag, TRUE exactly when the two values are equal and FALSE exactly when they are not, never
unset; no register and no memory changes, and the pc moves on by 3 (41_alu.md R113). -/
def Obligations.CmpWritesOnlyTheFlag : Prop :=
  ∀ (s : State) (ra rb : Reg),
    Completes (exec (.cmp ra.toByte rb.toByte) s)
      (fun t => (t.fl = .equal ↔ s.reg ra = s.reg rb) ∧ (t.fl = .unequal ↔ s.reg ra ≠ s.reg rb) ∧
        t.pc = s.pc + 3#9 ∧ SameRegsBut [] s t ∧ SameMemory s t ∧ t.out = s.out ∧ SameEngine s t)

/-- SHL and SHR: the value times, or divided by, two to the whole count, cut to 8 bits, so counts of 8 and more give
0; the pc on by 3, nothing else changed (41_alu.md sections 1 and 2; counts of 8 and more are the spec's decision D21,
log entry 18). -/
def Obligations.ShiftsUseTheWholeCount : Prop :=
  ∀ (s : State) (ra rb : Reg),
    Completes (exec (.shl ra.toByte rb.toByte) s)
      (fun t => (t.reg ra).toNat = ((s.reg ra).toNat * 2 ^ (s.reg rb).toNat) % 256 ∧
        (8 ≤ (s.reg rb).toNat → t.reg ra = 0#8) ∧ OnlyRegAdvance3 ra s t) ∧
      Completes (exec (.shr ra.toByte rb.toByte) s)
        (fun t => (t.reg ra).toNat = (s.reg ra).toNat / 2 ^ (s.reg rb).toNat ∧
          (8 ≤ (s.reg rb).toNat → t.reg ra = 0#8) ∧ OnlyRegAdvance3 ra s t)

/-- MOD: the remainder, smaller than the divisor, in register `a` and the pc on by 3; with a zero divisor the engine
halts, `x[a]` unchanged, the pc on by 1 and cause MOD_ZERO recorded (41_alu.md section 2; the recorded cause is the
spec's decision D11 and the pc its inference from HLT, log entry 22). -/
def Obligations.ModLeavesTheRemainderOrHalts : Prop :=
  ∀ (s : State) (ra rb : Reg),
    (s.reg rb ≠ 0#8 →
      Completes (exec (.mod ra.toByte rb.toByte) s)
        (fun t => (t.reg ra).toNat = (s.reg ra).toNat % (s.reg rb).toNat ∧ t.reg ra < s.reg rb ∧
          OnlyRegAdvance3 ra s t)) ∧
      (s.reg rb = 0#8 → Completes (exec (.mod ra.toByte rb.toByte) s) (HaltsOnePast .modZero s))

/-- The same register as both operands, with old value `v`: ADD doubles, MUL squares, AND and OR keep, XOR and SHR
clear, SHL shifts by its own value, MOD clears a non-zero register and on a zero one halts with cause MOD_ZERO, CMP finds
equal; the old value is used for both operands (41_alu.md sections 2 and 3, an inference the spec draws from its instruction
rules; shifts by 8 and more are decision D21, log entry 18, and the cause MOD_ZERO is decision D11, log entry 22). -/
def Obligations.SameRegisterForBothOperands : Prop :=
  ∀ (s : State) (r : Reg),
    Completes (exec (.add r.toByte r.toByte) s) (fun t => (t.reg r).toNat = 2 * (s.reg r).toNat % 256) ∧
      Completes (exec (.mul r.toByte r.toByte) s) (fun t => (t.reg r).toNat = (s.reg r).toNat ^ 2 % 256) ∧
      Completes (exec (.and r.toByte r.toByte) s) (fun t => t.reg r = s.reg r) ∧
      Completes (exec (.or r.toByte r.toByte) s) (fun t => t.reg r = s.reg r) ∧
      Completes (exec (.xor r.toByte r.toByte) s) (fun t => t.reg r = 0#8) ∧
      Completes (exec (.shl r.toByte r.toByte) s)
        (fun t => (t.reg r).toNat = (s.reg r).toNat * 2 ^ (s.reg r).toNat % 256) ∧
      Completes (exec (.shr r.toByte r.toByte) s) (fun t => t.reg r = 0#8) ∧
      Completes (exec (.cmp r.toByte r.toByte) s) (fun t => t.fl = .equal ∧ t.reg r = s.reg r) ∧
      Completes (exec (.mod r.toByte r.toByte) s)
        (fun t => t.reg r = 0#8 ∧ (s.reg r = 0#8 → t.phase = .halted ∧ t.haltCause = .modZero) ∧
          (s.reg r ≠ 0#8 → t.phase = s.phase))

/-! ## System and data instructions -/

/-- HLT: the engine halts with cause HLT and the pc one past the opcode; registers, memory, flag and output keep
their values (42_system_data.md R130). -/
def Obligations.HltHaltsOnePast : Prop := ∀ s : State, Completes (exec .hlt s) (HaltsOnePast .hlt s)

/-- LDI: register `a` takes the immediate as it stands, whatever byte it is, and register 7 like any other; the pc on
by 3, nothing else changed (42_system_data.md R131). -/
def Obligations.LdiLoadsTheImmediate : Prop :=
  ∀ (s : State) (ra : Reg) (imm : Byte),
    Completes (exec (.ldi ra.toByte imm) s) (fun t => t.reg ra = imm ∧ OnlyRegAdvance3 ra s t)

/-- PRN: exactly one value, the register's, is appended to the output; the pc on by 2, no register, flag or memory
cell changed (42_system_data.md R132). -/
def Obligations.PrnAppendsOneValue : Prop :=
  ∀ (s : State) (ra : Reg),
    Completes (exec (.prn ra.toByte) s)
      (fun t => t.out = s.out ++ [s.reg ra] ∧ t.pc = s.pc + 2#9 ∧ SameRegsBut [] s t ∧ t.fl = s.fl ∧
        SameMemory s t ∧ SameEngine s t)

/-! ## Stack instructions -/

/-- PUSH: SP goes down by one, modulo 256; the cell at the new SP, and no other, takes the source register, which for
r7 is the decremented SP; no other register changes, and the pc moves on by 2. It completes for every SP (43_stack.md
section 2; the wrap is decision D7, log entry 8, and the r7 form decision D8, log entry 9). -/
def Obligations.PushDecrementsThenStores : Prop :=
  ∀ (s : State) (ra : Reg),
    s.decSp.stackAddr = ((s.reg .sp).toNat + 255) % 256 ∧
      Completes (exec (.push ra.toByte) s)
        (fun t => (t.reg .sp).toNat = ((s.reg .sp).toNat + 255) % 256 ∧
          t.byteAt s.decSp.stackAddr = (if ra = .sp then t.reg .sp else s.reg ra) ∧
          SameMemoryBut s.decSp.stackAddr s t ∧ SameRegsBut [.sp] s t ∧ t.pc = s.pc + 2#9 ∧ t.fl = s.fl ∧
          t.out = s.out ∧ SameEngine s t)

/-- POP: register `a` takes the byte SP addresses and SP goes up by one, modulo 256; for r7 SP ends one above the
byte loaded. Memory does not change, no other register changes, and the pc moves on by 2 (43_stack.md section 2; the
wrap is decision D7, log entry 8, and the r7 form decision D8, log entry 9). -/
def Obligations.PopLoadsThenIncrements : Prop :=
  ∀ (s : State) (ra : Reg),
    Completes (exec (.pop ra.toByte) s)
      (fun t => (ra ≠ .sp → t.reg ra = s.byteAt (s.reg .sp).toNat ∧ t.reg .sp = s.reg .sp + 1#8) ∧
        (ra = .sp → t.reg .sp = s.byteAt (s.reg .sp).toNat + 1#8) ∧ SameRegsBut [ra, .sp] s t ∧
        SameMemory s t ∧ t.pc = s.pc + 2#9 ∧ t.fl = s.fl ∧ t.out = s.out ∧ SameEngine s t)

/-- PUSH then POP, neither naming r7: the popped register holds the pushed value, SP is back, and the one memory cell
that may differ is the one below SP, which holds the value; for every SP, and for the same register too (43_stack.md
section 3, an inference the spec draws from its rules; the source states the property). -/
def Obligations.PushThenPopIsARoundTrip : Prop :=
  ∀ (s : State) (ra rb : Reg),
    ra ≠ .sp → rb ≠ .sp →
      Completes (execAll [.push ra.toByte, .pop rb.toByte] s)
        (fun t => t.reg rb = s.reg ra ∧ t.reg .sp = s.reg .sp ∧
          t.byteAt (((s.reg .sp).toNat + 255) % 256) = s.reg ra ∧
          SameMemoryBut (((s.reg .sp).toNat + 255) % 256) s t ∧ SameRegsBut [rb] s t)

/-- Pushes from the reset stack pointer write downward one cell at a time: after `k` pushes, of any registers, SP is
0xF4 minus `k` and every cell outside the `k` cells below 0xF4 holds what it held, so a program of `n` bytes survives
0xF4 minus `n` pushes (70_reset_and_hazards.md section 4, an inference the spec draws from PUSH). -/
def Obligations.PushesLeaveTheProgramBytes : Prop :=
  ∀ (rs : List Reg) (s : State),
    s.reg .sp = 0xF4#8 → rs.length ≤ 0xF4 →
      Completes (execAll (rs.map fun r => .push r.toByte) s)
        (fun t => (t.reg .sp).toNat = 0xF4 - rs.length ∧
          ∀ n, n < 0xF4 - rs.length ∨ 0xF4 ≤ n → t.byteAt n = s.byteAt n)

/-- A byte a PUSH or a CALL stores is what the very next fetch of its cell reads, as the opcode or as an operand byte.
PUSH of r7 is included, and every byte. When the pc after it is the cell just written, a running engine's next step takes
that byte as its opcode: `ir` shows it, an instruction with that opcode whose operand bytes follow is executed, and a byte
that is no opcode faults and is recorded (20_memory.md section 5, an inference the spec draws from program order; the r7
forms are decision D8, log entry 9, the fault's record and precision D10 and D13, log entries 11 and 21, and `ir` D17, log
entry 12). -/
def Obligations.PushedByteIsFetchedNext : Prop :=
  ∀ (i : Instr) (s t : State) (v : Byte),
    PushesByte i s v → exec i s = .next t →
      (∀ k, k < 3 → t.pc.toNat + k = s.decSp.stackAddr → (fetchWindow t)[k]? = some v) ∧
        (s.phase = .running → t.pc.toNat = s.decSp.stackAddr → StepReadsOpcode v t)

/-! ## Control transfer -/

/-- CALL: SP goes down by one, the cell at the new SP, and no other, takes the address of the instruction after CALL,
and the pc takes the register, read after the decrement; with its opcode at 254 the return address is no address, and
CALL raises RET_ADDR_OVERFLOW with nothing written (44_control.md section 2; the fault is decision D6, log entry 7,
the r7 form decision D8, log entry 9). -/
def Obligations.CallPushesTheReturnAddress : Prop :=
  ∀ (s : State) (ra : Reg),
    (s.pc.toNat ≤ 253 →
      Completes (exec (.call ra.toByte) s)
        (fun t => (t.reg .sp).toNat = ((s.reg .sp).toNat + 255) % 256 ∧
          (t.byteAt s.decSp.stackAddr).toNat = s.pc.toNat + 2 ∧ SameMemoryBut s.decSp.stackAddr s t ∧
          SameRegsBut [.sp] s t ∧ t.pc.toNat = (t.reg ra).toNat ∧ t.fl = s.fl ∧ t.out = s.out ∧
          SameEngine s t)) ∧
      (s.pc.toNat = 254 → Completes (exec (.call ra.toByte) s) (FaultEntry .retAddrOverflow 256 s))

/-- RET: the pc takes the byte SP addresses, zero-extended, and SP goes up by one, modulo 256; memory does not change,
nor does any other register (44_control.md R151). -/
def Obligations.RetJumpsToTheTopOfStack : Prop :=
  ∀ s : State,
    Completes (exec .ret s)
      (fun t => t.pc.toNat = (s.byteAt (s.reg .sp).toNat).toNat ∧
        (t.reg .sp).toNat = ((s.reg .sp).toNat + 1) % 256 ∧ SameRegsBut [.sp] s t ∧ SameMemory s t ∧
        t.fl = s.fl ∧ t.out = s.out ∧ SameEngine s t)

/-- JMP: the pc takes the register, zero-extended, whatever the flag is, and nothing else changes (44_control.md
R152). -/
def Obligations.JmpWritesOnlyThePc : Prop :=
  ∀ (s : State) (ra : Reg),
    Completes (exec (.jmp ra.toByte) s) (fun t => t.pc.toNat = (s.reg ra).toNat ∧ OnlyPc s t)

/-- JEQ jumps exactly when the flag is TRUE and JNE exactly when it is FALSE; otherwise, an unset flag included, both
move on by 2. Only the pc changes; the flag keeps its value (44_control.md R156, all six entries of its table). -/
def Obligations.ConditionalJumpsFollowTheFlag : Prop :=
  ∀ (s : State) (ra : Reg),
    Completes (exec (.jeq ra.toByte) s)
      (fun t => (s.fl = .equal → t.pc.toNat = (s.reg ra).toNat) ∧ (s.fl ≠ .equal → t.pc = s.pc + 2#9) ∧
        OnlyPc s t) ∧
      Completes (exec (.jne ra.toByte) s)
        (fun t => (s.fl = .unequal → t.pc.toNat = (s.reg ra).toNat) ∧ (s.fl ≠ .unequal → t.pc = s.pc + 2#9) ∧
          OnlyPc s t)

/-- A CALL at an address up to 253, and later a RET in any state where SP and the pushed cell are as CALL left them,
returns to the instruction two bytes past the CALL with SP as before it (44_control.md section 3, an inference the
spec draws from its rules; the source states the property). -/
def Obligations.CallThenRetIsARoundTrip : Prop :=
  ∀ (s t u : State) (ra : Reg),
    s.pc.toNat ≤ 253 → exec (.call ra.toByte) s = .next t → u.reg .sp = t.reg .sp →
      u.byteAt s.decSp.stackAddr = t.byteAt s.decSp.stackAddr →
        Completes (exec .ret u) (fun v => v.pc.toNat = s.pc.toNat + 2 ∧ v.reg .sp = s.reg .sp)

/-! ## Faults -/

/-- Every instruction whose operand bytes include one above 7 where its format declares a register raises REG_BOUNDS
with the first such byte, and has no other effect: `a` before `b`, a conditional jump that would not jump included,
and CALL before its return address is looked at (60_exceptions.md section 1, 40_engine_cycle.md section 1; decisions
D3, D4 and D12, log entries 5 and 21). -/
def Obligations.BadRegisterByteFaultsFirst : Prop :=
  ∀ (i : Instr) (s : State) (b : Byte),
    i.regOperands.find? (fun x => decide (7 < x.toNat)) = some b →
      Completes (exec i s) (FaultEntry .regBounds b.toNat s)

/-- A well-formed instruction placed where it fits raises nothing, but for a CALL at address 254: no value of a
register or memory cell makes an instruction fault (60_exceptions.md section 5, an inference the spec draws). -/
def Obligations.WellFormedInstructionsDoNotFault : Prop :=
  ∀ (i : Instr) (s : State),
    i.wellFormed = true → s.phase = .running → (i.mnemonic = .call → s.pc.toNat ≤ 253) →
      Completes (exec i s)
        (fun t => t.phase ≠ .faulted ∧ t.faultCause = s.faultCause ∧ t.faultInfo = s.faultInfo)

/-- A step of a running engine raises exactly the first check that fails, in the order of 60_exceptions.md section 1,
with its cause and value and with `ir` taken when the opcode fetch succeeded; and when no check fails it does not
fault (the order is decision D12 and the precision D13, log entry 21; that the opcode fetch's check is for any pc above
255 is log entry 4). -/
def Obligations.TheFirstFailingCheckDecidesTheFault : Prop :=
  ∀ s : State,
    s.phase = .running →
      (∀ f v, firstFault s = some (f, v) →
        Completes (step s) (FaultEntry f v (if s.pc.toNat ≤ 255 then s.setIr (s.byteAt s.pc.toNat) else s))) ∧
        (firstFault s = none → Completes (step s) (fun t => t.phase ≠ .faulted ∧ t.faultCause = s.faultCause))

/-- Faults are precise: when a step of a running engine ends in FAULTED, registers, memory, flag, output, pc and halt
cause are as they were (60_exceptions.md section 1; decision D13, log entry 21). -/
def Obligations.FaultsArePrecise : Prop :=
  ∀ s t : State,
    s.phase = .running → step s = .next t → t.phase = .faulted →
      t.regs = s.regs ∧ t.mem = s.mem ∧ t.fl = s.fl ∧ t.out = s.out ∧ t.pc = s.pc ∧ t.haltCause = s.haltCause

/-! ## Whole-machine rules -/

/-- The flag is written only by CMP and read only by JEQ and JNE; CMP leaves TRUE or FALSE, and no step sets the flag
back to UNSET; reset does (10_state.md R31). That an instruction does not read the flag: changing it beforehand changes nothing
else in the answer. -/
def Obligations.OnlyCmpWritesAndOnlyJumpsReadTheFlag : Prop :=
  (∀ (i : Instr) (s t : State), i.mnemonic ≠ .cmp → exec i s = .next t → t.fl = s.fl) ∧
    (∀ (s : State) (ra rb : Reg), Completes (exec (.cmp ra.toByte rb.toByte) s) (fun t => t.fl ≠ .unset)) ∧
    (∀ s t : State, step s = .next t → t.fl = .unset → s.fl = .unset) ∧
    (∀ (i : Instr) (s : State) (f : Flag),
      i.mnemonic ≠ .cmp → i.mnemonic ≠ .jeq → i.mnemonic ≠ .jne →
        exec i (s.setFl f) = mapNext (fun t => t.setFl f) (exec i s)) ∧
    (∀ (s : State) (ra rb : Reg) (f : Flag),
      exec (.cmp ra.toByte rb.toByte) (s.setFl f) = exec (.cmp ra.toByte rb.toByte) s) ∧
    ∀ s : State, (hostReset s).fl = .unset

/-- Memory changes only by PUSH and CALL, and by them only at the cell SP addresses after its decrement (20_memory.md
section 1, an inference the spec draws from the instruction rules). -/
def Obligations.OnlyPushAndCallWriteMemory : Prop :=
  ∀ (i : Instr) (s t : State),
    exec i s = .next t →
      (i.mnemonic ≠ .push → i.mnemonic ≠ .call → SameMemory s t) ∧ SameMemoryBut s.decSp.stackAddr s t

/-- The output stream only grows, by one value, and only by PRN; and no instruction reads it: other earlier output
changes nothing else (10_state.md section 7). -/
def Obligations.OutputOnlyGrowsAndIsNeverRead : Prop :=
  (∀ (i : Instr) (s t : State),
    exec i s = .next t → t.out = s.out ∨ i.mnemonic = .prn ∧ ∃ r : Reg, t.out = s.out ++ [s.reg r]) ∧
    ∀ (i : Instr) (s : State) (earlier : List Byte),
      exec i { s with out := earlier ++ s.out } =
        mapNext (fun t => { t with out := earlier ++ t.out }) (exec i s)

/-- The instruction register, the halt and fault registers and the output are never read: states that a program
cannot tell apart stay so under every instruction (10_state.md sections 6 to 8). -/
def Obligations.StatusRegistersAreNeverRead : Prop :=
  ∀ (i : Instr) (s s' t t' : State),
    SameForProgram s s' → exec i s = .next t → exec i s' = .next t' → SameForProgram t t'

/-- A running engine halts only by HLT, with cause HLT, or by MOD with a zero divisor, with cause MOD_ZERO; it never
goes back to IDLE (10_state.md section 5, 40_engine_cycle.md section 2; the recorded cause is decision D11, log entry
22). -/
def Obligations.OnlyHltAndModByZeroHalt : Prop :=
  ∀ (i : Instr) (s t : State),
    s.phase = .running → exec i s = .next t →
      t.phase ≠ .idle ∧
        (t.phase = .halted →
          i = .hlt ∧ t.haltCause = .hlt ∨
            ∃ ra rb : Reg, i = .mod ra.toByte rb.toByte ∧ s.reg rb = 0#8 ∧ t.haltCause = .modZero)

/-! ## Reset, the host's operations, the invariant -/

/-- After reset, from whatever state: every memory cell 0x00, SP 0xF4, the other registers 0x00, pc 0, the flag
unset, phase IDLE, `ir` and the cause registers 0, no output (70_reset_and_hazards.md section 1, 10_state.md section 9;
x[0] to x[6], the phase, `ir` and the cause registers are decisions D9 to D11, D14, D17, log entries 1, 11, 12). -/
def Obligations.ResetClearsEverythingButSp : Prop :=
  ∀ s : State,
    (∀ n, (hostReset s).byteAt n = 0x00#8) ∧ (hostReset s).reg .sp = 0xF4#8 ∧
      (∀ r, r ≠ .sp → (hostReset s).reg r = 0x00#8) ∧ (hostReset s).pc = 0#9 ∧ (hostReset s).fl = .unset ∧
      (hostReset s).phase = .idle ∧ (hostReset s).ir = 0x00#8 ∧
      observe (hostReset s) = ⟨0#2, 0#2, 0#3, 0#9, []⟩

/-- `run` in IDLE sets the phase to RUNNING and changes nothing else: registers, flag, memory and pc are as reset and
load left them (40_engine_cycle.md R97). -/
def Obligations.RunChangesOnlyThePhase : Prop :=
  ∀ s : State, s.phase = .idle → hostRun s = { s with phase := .running }

/-- `load` in IDLE puts byte `k` of the image into cell `k` and changes nothing else; an image of more than 256 bytes
is refused; outside IDLE `load` and `run` change nothing (70_reset_and_hazards.md section 2; decision D19, log entries
15 and 16). -/
def Obligations.LoadWritesTheImageFromZero : Prop :=
  ∀ (image : List Byte) (s : State),
    (s.phase = .idle → image.length ≤ 256 →
      Completes (hostLoad image s)
        (fun t => (∀ n, t.byteAt n = (image[n]?).getD (s.byteAt n)) ∧ t = { s with mem := t.mem })) ∧
      (s.phase = .idle → 256 < image.length → hostLoad image s = .refused (.imageTooLong image.length)) ∧
      (s.phase ≠ .idle → hostLoad image s = .next s ∧ hostRun s = s)

/-- Reset, load, run: the first instruction executed is the one at the head of the image, whatever instruction that is
(70_reset_and_hazards.md sections 1 and 2; log entry 14). -/
def Obligations.BootRunsTheHeadOfTheImage : Prop :=
  ∀ (i : Instr) (rest : List Byte),
    (encode i ++ rest).length ≤ 256 →
      Completes (hostLoad (encode i ++ rest) State.reset)
        (fun t => step (hostRun t) = exec i ((hostRun t).setIr i.mnemonic.opcode))

/-- A table word that decodes, placed for the next fetch, is what the very next step runs, in a state with the same
registers, flag and output (a property of the model's own placing of a word, log entry 14). -/
def Obligations.PlacedWordRunsNext : Prop :=
  ∀ (s : State) (nbits w : Nat) (i : Instr),
    decodeTableWord nbits w = some i →
      ∃ s' : State, step (s.withFetchWord nbits w) = exec i s' ∧ s'.regs = s.regs ∧ s'.fl = s.fl ∧ s'.out = s.out ∧
        s'.phase = .running

/-- The status registers have the encodings of 10_state.md sections 4 to 6 and 60_exceptions.md section 1, the reserved
fault cause included; what the host observes of any state is these codes of it, its `fault_info` and its output; and JEQ
and JNE test the two flag bits as `V and E` and `V and not E` (decisions D9, D10, D11 and D16, log entry 11; the reserved
cause is log entry 23). -/
def Obligations.StatusEncodings : Prop :=
  ((Phase.code .idle, Phase.code .running, Phase.code .halted, Phase.code .faulted) = (0#2, 1#2, 2#2, 3#2)) ∧
    ((HaltCause.code .none, HaltCause.code .hlt, HaltCause.code .modZero) = (0#2, 1#2, 2#2)) ∧
    ((FaultCause.code .none, FaultCause.code .unknownOpcode, FaultCause.code .memBounds, FaultCause.code .regBounds,
      FaultCause.code .retAddrOverflow, FaultCause.code .unsupportedAluOp) = (0#3, 1#3, 2#3, 3#3, 4#3, 5#3)) ∧
    (Flag.bits .unset = 0b00#2 ∧ Flag.bits .unequal = 0b10#2 ∧ Flag.bits .equal = 0b11#2) ∧
    (∀ s : State,
      observe s = ⟨s.phase.code, s.haltCause.code, s.faultCause.code, s.faultInfo, s.out⟩) ∧
    ∀ f : Flag,
      f.takesJeq = ((Flag.bits f).getLsbD 1 && (Flag.bits f).getLsbD 0) ∧
        f.takesJne = ((Flag.bits f).getLsbD 1 && !(Flag.bits f).getLsbD 0)

/-- The state after reset satisfies the invariant. -/
def Obligations.ResetMeetsTheInvariant : Prop := Inv State.reset

/-- Every step, from every state that meets the invariant, keeps it: memory stays in canonical form, the pc stays 0 to
256, the cause registers are written only together with the phase and hold what the spec says for their cause
(10_state.md sections 3, 5 and 6, 60_exceptions.md section 1; the pc's bound is decision D1, log entry 3). -/
def Obligations.StepKeepsTheInvariant : Prop := ∀ s t : State, Inv s → step s = .next t → Inv t

/-- The host's load and run keep the invariant (70_reset_and_hazards.md section 2). -/
def Obligations.HostOperationsKeepTheInvariant : Prop :=
  ∀ (image : List Byte) (s t : State), Inv s → (hostLoad image s = .next t → Inv t) ∧ Inv (hostRun s)

/-- Every state the host and the engine can bring about meets the invariant, and its fault record never holds the
reserved cause (60_exceptions.md section 1, 70_reset_and_hazards.md sections 2 and 3; what the host can do is log entry 15,
the reserved cause log entry 23). -/
def Obligations.ReachableStatesMeetTheInvariant : Prop :=
  ∀ s : State, Reachable s → Inv s ∧ s.faultCause ≠ .unsupportedAluOp
end

