-- ==== Sys2Proof/Laws/Decode.lean ====
section
/-!
SUPPORT. The opcode map read both ways, and the shape of encodings.
-/

namespace Sys2Proof

@[simp] theorem decodeOpcode_opcode (m : Mnemonic) : decodeOpcode m.opcode = some m := by cases m <;> rfl

/-- The opcode map is exact: a byte decodes to a mnemonic only if it is that mnemonic's opcode. -/
theorem decodeOpcode_eq_some (op : Byte) (m : Mnemonic) : decodeOpcode op = some m ↔ op = m.opcode := by
  constructor
  · intro h
    unfold decodeOpcode at h
    split at h <;> simp_all <;> subst h <;> exact BitVec.eq_of_toNat_eq (by simpa [Mnemonic.opcode])
  · rintro rfl
    exact decodeOpcode_opcode m

@[simp] theorem Mnemonic.mnemonic_build (m : Mnemonic) (a b : Byte) : (m.build a b).mnemonic = m := by
  cases m <;> rfl

theorem encode_length (i : Instr) : (encode i).length = i.length := by cases i <;> rfl

end Sys2Proof
end

