-- ==== Sys2Proof/Laws/State.lean ====
section
/-!
SUPPORT. One lemma per field of the state for every update of Machine/Ops.lean, so that no proof unfolds a record
update; then the register accessor through every update.
-/

namespace Sys2Proof.Machine

/-! ### `State.setReg` -/

@[simp] theorem State.setReg_mem (s : State) (r : Reg) (v : Byte) : (s.setReg r v).mem = s.mem := rfl
@[simp] theorem State.setReg_regs (s : State) (r : Reg) (v : Byte) : (s.setReg r v).regs = s.regs.set r v := rfl
@[simp] theorem State.setReg_pc (s : State) (r : Reg) (v : Byte) : (s.setReg r v).pc = s.pc := rfl
@[simp] theorem State.setReg_fl (s : State) (r : Reg) (v : Byte) : (s.setReg r v).fl = s.fl := rfl
@[simp] theorem State.setReg_phase (s : State) (r : Reg) (v : Byte) : (s.setReg r v).phase = s.phase := rfl
@[simp] theorem State.setReg_ir (s : State) (r : Reg) (v : Byte) : (s.setReg r v).ir = s.ir := rfl
@[simp] theorem State.setReg_haltCause (s : State) (r : Reg) (v : Byte) :
    (s.setReg r v).haltCause = s.haltCause := rfl
@[simp] theorem State.setReg_faultCause (s : State) (r : Reg) (v : Byte) :
    (s.setReg r v).faultCause = s.faultCause := rfl
@[simp] theorem State.setReg_faultInfo (s : State) (r : Reg) (v : Byte) :
    (s.setReg r v).faultInfo = s.faultInfo := rfl
@[simp] theorem State.setReg_out (s : State) (r : Reg) (v : Byte) : (s.setReg r v).out = s.out := rfl

/-! ### `State.storeByte` -/

@[simp] theorem State.storeByte_mem (s : State) (addr : Nat) (v : Byte) :
    (s.storeByte addr v).mem = s.mem.write addr v := rfl
@[simp] theorem State.storeByte_regs (s : State) (addr : Nat) (v : Byte) : (s.storeByte addr v).regs = s.regs := rfl
@[simp] theorem State.storeByte_pc (s : State) (addr : Nat) (v : Byte) : (s.storeByte addr v).pc = s.pc := rfl
@[simp] theorem State.storeByte_fl (s : State) (addr : Nat) (v : Byte) : (s.storeByte addr v).fl = s.fl := rfl
@[simp] theorem State.storeByte_phase (s : State) (addr : Nat) (v : Byte) :
    (s.storeByte addr v).phase = s.phase := rfl
@[simp] theorem State.storeByte_ir (s : State) (addr : Nat) (v : Byte) : (s.storeByte addr v).ir = s.ir := rfl
@[simp] theorem State.storeByte_haltCause (s : State) (addr : Nat) (v : Byte) :
    (s.storeByte addr v).haltCause = s.haltCause := rfl
@[simp] theorem State.storeByte_faultCause (s : State) (addr : Nat) (v : Byte) :
    (s.storeByte addr v).faultCause = s.faultCause := rfl
@[simp] theorem State.storeByte_faultInfo (s : State) (addr : Nat) (v : Byte) :
    (s.storeByte addr v).faultInfo = s.faultInfo := rfl
@[simp] theorem State.storeByte_out (s : State) (addr : Nat) (v : Byte) : (s.storeByte addr v).out = s.out := rfl

/-! ### `State.setPc` -/

@[simp] theorem State.setPc_mem (s : State) (t : Word9) : (s.setPc t).mem = s.mem := rfl
@[simp] theorem State.setPc_regs (s : State) (t : Word9) : (s.setPc t).regs = s.regs := rfl
@[simp] theorem State.setPc_pc (s : State) (t : Word9) : (s.setPc t).pc = t := rfl
@[simp] theorem State.setPc_fl (s : State) (t : Word9) : (s.setPc t).fl = s.fl := rfl
@[simp] theorem State.setPc_phase (s : State) (t : Word9) : (s.setPc t).phase = s.phase := rfl
@[simp] theorem State.setPc_ir (s : State) (t : Word9) : (s.setPc t).ir = s.ir := rfl
@[simp] theorem State.setPc_haltCause (s : State) (t : Word9) : (s.setPc t).haltCause = s.haltCause := rfl
@[simp] theorem State.setPc_faultCause (s : State) (t : Word9) : (s.setPc t).faultCause = s.faultCause := rfl
@[simp] theorem State.setPc_faultInfo (s : State) (t : Word9) : (s.setPc t).faultInfo = s.faultInfo := rfl
@[simp] theorem State.setPc_out (s : State) (t : Word9) : (s.setPc t).out = s.out := rfl

/-! ### `State.advance` -/

@[simp] theorem State.advance_mem (s : State) (len : Nat) : (s.advance len).mem = s.mem := rfl
@[simp] theorem State.advance_regs (s : State) (len : Nat) : (s.advance len).regs = s.regs := rfl
@[simp] theorem State.advance_pc (s : State) (len : Nat) : (s.advance len).pc = s.pc + BitVec.ofNat 9 len := rfl
@[simp] theorem State.advance_fl (s : State) (len : Nat) : (s.advance len).fl = s.fl := rfl
@[simp] theorem State.advance_phase (s : State) (len : Nat) : (s.advance len).phase = s.phase := rfl
@[simp] theorem State.advance_ir (s : State) (len : Nat) : (s.advance len).ir = s.ir := rfl
@[simp] theorem State.advance_haltCause (s : State) (len : Nat) : (s.advance len).haltCause = s.haltCause := rfl
@[simp] theorem State.advance_faultCause (s : State) (len : Nat) : (s.advance len).faultCause = s.faultCause := rfl
@[simp] theorem State.advance_faultInfo (s : State) (len : Nat) : (s.advance len).faultInfo = s.faultInfo := rfl
@[simp] theorem State.advance_out (s : State) (len : Nat) : (s.advance len).out = s.out := rfl

/-! ### `State.jumpTo` -/

@[simp] theorem State.jumpTo_mem (s : State) (v : Byte) : (s.jumpTo v).mem = s.mem := rfl
@[simp] theorem State.jumpTo_regs (s : State) (v : Byte) : (s.jumpTo v).regs = s.regs := rfl
@[simp] theorem State.jumpTo_pc (s : State) (v : Byte) : (s.jumpTo v).pc = zext9 v := rfl
@[simp] theorem State.jumpTo_fl (s : State) (v : Byte) : (s.jumpTo v).fl = s.fl := rfl
@[simp] theorem State.jumpTo_phase (s : State) (v : Byte) : (s.jumpTo v).phase = s.phase := rfl
@[simp] theorem State.jumpTo_ir (s : State) (v : Byte) : (s.jumpTo v).ir = s.ir := rfl
@[simp] theorem State.jumpTo_haltCause (s : State) (v : Byte) : (s.jumpTo v).haltCause = s.haltCause := rfl
@[simp] theorem State.jumpTo_faultCause (s : State) (v : Byte) : (s.jumpTo v).faultCause = s.faultCause := rfl
@[simp] theorem State.jumpTo_faultInfo (s : State) (v : Byte) : (s.jumpTo v).faultInfo = s.faultInfo := rfl
@[simp] theorem State.jumpTo_out (s : State) (v : Byte) : (s.jumpTo v).out = s.out := rfl

/-! ### `State.setFl` -/

@[simp] theorem State.setFl_mem (s : State) (v : Flag) : (s.setFl v).mem = s.mem := rfl
@[simp] theorem State.setFl_regs (s : State) (v : Flag) : (s.setFl v).regs = s.regs := rfl
@[simp] theorem State.setFl_pc (s : State) (v : Flag) : (s.setFl v).pc = s.pc := rfl
@[simp] theorem State.setFl_fl (s : State) (v : Flag) : (s.setFl v).fl = v := rfl
@[simp] theorem State.setFl_phase (s : State) (v : Flag) : (s.setFl v).phase = s.phase := rfl
@[simp] theorem State.setFl_ir (s : State) (v : Flag) : (s.setFl v).ir = s.ir := rfl
@[simp] theorem State.setFl_haltCause (s : State) (v : Flag) : (s.setFl v).haltCause = s.haltCause := rfl
@[simp] theorem State.setFl_faultCause (s : State) (v : Flag) : (s.setFl v).faultCause = s.faultCause := rfl
@[simp] theorem State.setFl_faultInfo (s : State) (v : Flag) : (s.setFl v).faultInfo = s.faultInfo := rfl
@[simp] theorem State.setFl_out (s : State) (v : Flag) : (s.setFl v).out = s.out := rfl

/-! ### `State.setIr` -/

@[simp] theorem State.setIr_mem (s : State) (op : Byte) : (s.setIr op).mem = s.mem := rfl
@[simp] theorem State.setIr_regs (s : State) (op : Byte) : (s.setIr op).regs = s.regs := rfl
@[simp] theorem State.setIr_pc (s : State) (op : Byte) : (s.setIr op).pc = s.pc := rfl
@[simp] theorem State.setIr_fl (s : State) (op : Byte) : (s.setIr op).fl = s.fl := rfl
@[simp] theorem State.setIr_phase (s : State) (op : Byte) : (s.setIr op).phase = s.phase := rfl
@[simp] theorem State.setIr_ir (s : State) (op : Byte) : (s.setIr op).ir = op := rfl
@[simp] theorem State.setIr_haltCause (s : State) (op : Byte) : (s.setIr op).haltCause = s.haltCause := rfl
@[simp] theorem State.setIr_faultCause (s : State) (op : Byte) : (s.setIr op).faultCause = s.faultCause := rfl
@[simp] theorem State.setIr_faultInfo (s : State) (op : Byte) : (s.setIr op).faultInfo = s.faultInfo := rfl
@[simp] theorem State.setIr_out (s : State) (op : Byte) : (s.setIr op).out = s.out := rfl

/-! ### `State.emit` -/

@[simp] theorem State.emit_mem (s : State) (v : Byte) : (s.emit v).mem = s.mem := rfl
@[simp] theorem State.emit_regs (s : State) (v : Byte) : (s.emit v).regs = s.regs := rfl
@[simp] theorem State.emit_pc (s : State) (v : Byte) : (s.emit v).pc = s.pc := rfl
@[simp] theorem State.emit_fl (s : State) (v : Byte) : (s.emit v).fl = s.fl := rfl
@[simp] theorem State.emit_phase (s : State) (v : Byte) : (s.emit v).phase = s.phase := rfl
@[simp] theorem State.emit_ir (s : State) (v : Byte) : (s.emit v).ir = s.ir := rfl
@[simp] theorem State.emit_haltCause (s : State) (v : Byte) : (s.emit v).haltCause = s.haltCause := rfl
@[simp] theorem State.emit_faultCause (s : State) (v : Byte) : (s.emit v).faultCause = s.faultCause := rfl
@[simp] theorem State.emit_faultInfo (s : State) (v : Byte) : (s.emit v).faultInfo = s.faultInfo := rfl
@[simp] theorem State.emit_out (s : State) (v : Byte) : (s.emit v).out = s.out ++ [v] := rfl

/-! ### `State.halt` -/

@[simp] theorem State.halt_mem (s : State) (c : HaltCause) : (s.halt c).mem = s.mem := rfl
@[simp] theorem State.halt_regs (s : State) (c : HaltCause) : (s.halt c).regs = s.regs := rfl
@[simp] theorem State.halt_pc (s : State) (c : HaltCause) : (s.halt c).pc = s.pc := rfl
@[simp] theorem State.halt_fl (s : State) (c : HaltCause) : (s.halt c).fl = s.fl := rfl
@[simp] theorem State.halt_phase (s : State) (c : HaltCause) : (s.halt c).phase = .halted := rfl
@[simp] theorem State.halt_ir (s : State) (c : HaltCause) : (s.halt c).ir = s.ir := rfl
@[simp] theorem State.halt_haltCause (s : State) (c : HaltCause) : (s.halt c).haltCause = c := rfl
@[simp] theorem State.halt_faultCause (s : State) (c : HaltCause) : (s.halt c).faultCause = s.faultCause := rfl
@[simp] theorem State.halt_faultInfo (s : State) (c : HaltCause) : (s.halt c).faultInfo = s.faultInfo := rfl
@[simp] theorem State.halt_out (s : State) (c : HaltCause) : (s.halt c).out = s.out := rfl

/-! ### `State.raise` -/

@[simp] theorem State.raise_mem (s : State) (f : FaultCause) (info : Word9) : (s.raise f info).mem = s.mem := rfl
@[simp] theorem State.raise_regs (s : State) (f : FaultCause) (info : Word9) : (s.raise f info).regs = s.regs := rfl
@[simp] theorem State.raise_pc (s : State) (f : FaultCause) (info : Word9) : (s.raise f info).pc = s.pc := rfl
@[simp] theorem State.raise_fl (s : State) (f : FaultCause) (info : Word9) : (s.raise f info).fl = s.fl := rfl
@[simp] theorem State.raise_phase (s : State) (f : FaultCause) (info : Word9) :
    (s.raise f info).phase = .faulted := rfl
@[simp] theorem State.raise_ir (s : State) (f : FaultCause) (info : Word9) : (s.raise f info).ir = s.ir := rfl
@[simp] theorem State.raise_haltCause (s : State) (f : FaultCause) (info : Word9) :
    (s.raise f info).haltCause = s.haltCause := rfl
@[simp] theorem State.raise_faultCause (s : State) (f : FaultCause) (info : Word9) :
    (s.raise f info).faultCause = f := rfl
@[simp] theorem State.raise_faultInfo (s : State) (f : FaultCause) (info : Word9) :
    (s.raise f info).faultInfo = info := rfl
@[simp] theorem State.raise_out (s : State) (f : FaultCause) (info : Word9) : (s.raise f info).out = s.out := rfl

/-! ### `State.raiseMemBounds` -/

@[simp] theorem State.raiseMemBounds_mem (s : State) (addr : Nat) : (s.raiseMemBounds addr).mem = s.mem := rfl
@[simp] theorem State.raiseMemBounds_regs (s : State) (addr : Nat) : (s.raiseMemBounds addr).regs = s.regs := rfl
@[simp] theorem State.raiseMemBounds_pc (s : State) (addr : Nat) : (s.raiseMemBounds addr).pc = s.pc := rfl
@[simp] theorem State.raiseMemBounds_fl (s : State) (addr : Nat) : (s.raiseMemBounds addr).fl = s.fl := rfl
@[simp] theorem State.raiseMemBounds_phase (s : State) (addr : Nat) : (s.raiseMemBounds addr).phase = .faulted := rfl
@[simp] theorem State.raiseMemBounds_ir (s : State) (addr : Nat) : (s.raiseMemBounds addr).ir = s.ir := rfl
@[simp] theorem State.raiseMemBounds_haltCause (s : State) (addr : Nat) :
    (s.raiseMemBounds addr).haltCause = s.haltCause := rfl
@[simp] theorem State.raiseMemBounds_faultCause (s : State) (addr : Nat) :
    (s.raiseMemBounds addr).faultCause = .memBounds := rfl
@[simp] theorem State.raiseMemBounds_faultInfo (s : State) (addr : Nat) :
    (s.raiseMemBounds addr).faultInfo = BitVec.ofNat 9 addr := rfl
@[simp] theorem State.raiseMemBounds_out (s : State) (addr : Nat) : (s.raiseMemBounds addr).out = s.out := rfl

/-! ### `State.decSp` -/

@[simp] theorem State.decSp_mem (s : State) : s.decSp.mem = s.mem := rfl
@[simp] theorem State.decSp_regs (s : State) : s.decSp.regs = s.regs.set .sp (s.reg .sp - 1#8) := rfl
@[simp] theorem State.decSp_pc (s : State) : s.decSp.pc = s.pc := rfl
@[simp] theorem State.decSp_fl (s : State) : s.decSp.fl = s.fl := rfl
@[simp] theorem State.decSp_phase (s : State) : s.decSp.phase = s.phase := rfl
@[simp] theorem State.decSp_ir (s : State) : s.decSp.ir = s.ir := rfl
@[simp] theorem State.decSp_haltCause (s : State) : s.decSp.haltCause = s.haltCause := rfl
@[simp] theorem State.decSp_faultCause (s : State) : s.decSp.faultCause = s.faultCause := rfl
@[simp] theorem State.decSp_faultInfo (s : State) : s.decSp.faultInfo = s.faultInfo := rfl
@[simp] theorem State.decSp_out (s : State) : s.decSp.out = s.out := rfl

/-! ### `State.incSp` -/

@[simp] theorem State.incSp_mem (s : State) : s.incSp.mem = s.mem := rfl
@[simp] theorem State.incSp_regs (s : State) : s.incSp.regs = s.regs.set .sp (s.reg .sp + 1#8) := rfl
@[simp] theorem State.incSp_pc (s : State) : s.incSp.pc = s.pc := rfl
@[simp] theorem State.incSp_fl (s : State) : s.incSp.fl = s.fl := rfl
@[simp] theorem State.incSp_phase (s : State) : s.incSp.phase = s.phase := rfl
@[simp] theorem State.incSp_ir (s : State) : s.incSp.ir = s.ir := rfl
@[simp] theorem State.incSp_haltCause (s : State) : s.incSp.haltCause = s.haltCause := rfl
@[simp] theorem State.incSp_faultCause (s : State) : s.incSp.faultCause = s.faultCause := rfl
@[simp] theorem State.incSp_faultInfo (s : State) : s.incSp.faultInfo = s.faultInfo := rfl
@[simp] theorem State.incSp_out (s : State) : s.incSp.out = s.out := rfl

/-! ### The register accessor -/

@[simp] theorem RegFile.get_set (f : RegFile) (r r' : Reg) (v : Byte) :
    (f.set r v).get r' = if r' = r then v else f.get r' := by
  cases r <;> cases r' <;> rfl

/-- A register file is its eight registers. -/
theorem RegFile.ext_get (f g : RegFile) (h : ∀ r, f.get r = g.get r) : f = g := by
  cases f
  cases g
  simp only [RegFile.mk.injEq]
  exact ⟨h .r0, h .r1, h .r2, h .r3, h .r4, h .r5, h .r6, h .r7⟩

@[simp] theorem State.reg_setReg (s : State) (r r' : Reg) (v : Byte) :
    (s.setReg r v).reg r' = if r' = r then v else s.reg r' := RegFile.get_set s.regs r r' v

@[simp] theorem State.reg_decSp (s : State) (r : Reg) :
    s.decSp.reg r = if r = .sp then s.reg .sp - 1#8 else s.reg r := RegFile.get_set s.regs .sp r _

@[simp] theorem State.reg_incSp (s : State) (r : Reg) :
    s.incSp.reg r = if r = .sp then s.reg .sp + 1#8 else s.reg r := RegFile.get_set s.regs .sp r _

@[simp] theorem State.stackAddr_decSp (s : State) : s.decSp.stackAddr = (s.reg .sp - 1#8).toNat := by
  simp [State.stackAddr]

@[simp] theorem State.reg_storeByte (s : State) (addr : Nat) (v : Byte) (r : Reg) : (s.storeByte addr v).reg r = s.reg r := rfl

@[simp] theorem State.reg_setPc (s : State) (t : Word9) (r : Reg) : (s.setPc t).reg r = s.reg r := rfl

@[simp] theorem State.reg_advance (s : State) (len : Nat) (r : Reg) : (s.advance len).reg r = s.reg r := rfl

@[simp] theorem State.reg_jumpTo (s : State) (v : Byte) (r : Reg) : (s.jumpTo v).reg r = s.reg r := rfl

@[simp] theorem State.reg_setFl (s : State) (v : Flag) (r : Reg) : (s.setFl v).reg r = s.reg r := rfl

@[simp] theorem State.reg_setIr (s : State) (op : Byte) (r : Reg) : (s.setIr op).reg r = s.reg r := rfl

@[simp] theorem State.reg_emit (s : State) (v : Byte) (r : Reg) : (s.emit v).reg r = s.reg r := rfl

@[simp] theorem State.reg_halt (s : State) (c : HaltCause) (r : Reg) : (s.halt c).reg r = s.reg r := rfl

@[simp] theorem State.reg_raise (s : State) (f : FaultCause) (info : Word9) (r : Reg) : (s.raise f info).reg r = s.reg r := rfl

@[simp] theorem State.reg_raiseMemBounds (s : State) (addr : Nat) (r : Reg) : (s.raiseMemBounds addr).reg r = s.reg r := rfl

end Sys2Proof.Machine
end

