-- ==== Sys2Proof/Laws/Memory.lean ====
section
/-!
SUPPORT. The laws of memory: a read after a write, what a write leaves alone, that every memory operation keeps
the canonical form, and that memories in canonical form that read alike are equal data.
-/

namespace Sys2Proof.Machine

/-! ### Reading after listing, no longer listing, writing -/

theorem Memory.read_insert_same (m : Memory) (a : Nat) (v : Byte) : (m.insert a v).read a = v := by
  induction m with
  | nil => simp [Memory.insert, Memory.read]
  | cons c rest ih =>
    obtain ⟨k, w⟩ := c
    unfold Memory.insert
    split
    · simp [Memory.read]
    · split
      · simp [Memory.read]
      · rename_i h1 h2
        simpa [Memory.read, Ne.symm h2] using ih

theorem Memory.read_insert_other (m : Memory) (a b : Nat) (v : Byte) (h : b ≠ a) :
    (m.insert a v).read b = m.read b := by
  induction m with
  | nil => simp [Memory.insert, Memory.read, h.symm]
  | cons c rest ih =>
    obtain ⟨k, w⟩ := c
    unfold Memory.insert
    split
    · simp [Memory.read, h.symm]
    · split
      · rename_i h1 h2
        subst h2
        simp [Memory.read, h.symm]
      · simp [Memory.read, ih]

theorem Memory.read_erase_same (m : Memory) (a : Nat) : (m.erase a).read a = Config.memReset := by
  induction m with
  | nil => rfl
  | cons c rest ih =>
    obtain ⟨k, w⟩ := c
    by_cases h : k = a
    · simpa [Memory.erase, h] using ih
    · simpa [Memory.erase, Memory.read, h] using ih

theorem Memory.read_erase_other (m : Memory) (a b : Nat) (h : b ≠ a) : (m.erase a).read b = m.read b := by
  induction m with
  | nil => rfl
  | cons c rest ih =>
    obtain ⟨k, w⟩ := c
    by_cases hk : k = a
    · subst hk
      simpa [Memory.erase, Memory.read, h.symm] using ih
    · by_cases hb : k = b
      · subst hb
        simp [Memory.erase, Memory.read, hk]
      · simpa [Memory.erase, Memory.read, hk, hb] using ih

/-- A read of the address just written gives the value written. -/
@[simp] theorem Memory.read_write_same (m : Memory) (a : Nat) (v : Byte) : (m.write a v).read a = v := by
  unfold Memory.write
  split
  · rename_i h
    rw [Memory.read_erase_same, h]
  · exact Memory.read_insert_same m a v

/-- A write leaves every other address alone. -/
theorem Memory.read_write_other (m : Memory) (a b : Nat) (v : Byte) (h : b ≠ a) :
    (m.write a v).read b = m.read b := by
  unfold Memory.write
  split
  · exact Memory.read_erase_other m a b h
  · exact Memory.read_insert_other m a b v h

theorem Memory.read_write (m : Memory) (a b : Nat) (v : Byte) :
    (m.write a v).read b = if b = a then v else m.read b := by
  split
  · rename_i h
    rw [h, Memory.read_write_same]
  · rename_i h
    exact Memory.read_write_other m a b v h

/-! ### The canonical form -/

theorem Memory.wf_cons (a : Nat) (v : Byte) (rest : Memory) :
    Memory.wf ((a, v) :: rest) = true ↔
      a < Config.memSize ∧ v ≠ Config.memReset ∧ (∀ c ∈ rest, a < c.1) ∧ Memory.wf rest = true := by
  simp [Memory.wf, List.all_eq_true, and_assoc]

theorem Memory.mem_insert (m : Memory) (a : Nat) (v : Byte) (c : Host.Cell) (h : c ∈ m.insert a v) :
    c = (a, v) ∨ c ∈ m := by
  induction m with
  | nil => simpa [Memory.insert] using h
  | cons d rest ih =>
    obtain ⟨k, w⟩ := d
    unfold Memory.insert at h
    split at h
    · simpa using h
    · split at h
      · rcases List.mem_cons.mp h with h | h
        · exact .inl h
        · exact .inr (List.mem_cons_of_mem _ h)
      · rcases List.mem_cons.mp h with h | h
        · exact .inr (h ▸ List.mem_cons_self)
        · exact (ih h).imp_right (List.mem_cons_of_mem _)

theorem Memory.wf_insert (m : Memory) (a : Nat) (v : Byte) (ha : a < Config.memSize) (hv : v ≠ Config.memReset)
    (hm : m.wf = true) : (m.insert a v).wf = true := by
  induction m with
  | nil => exact (Memory.wf_cons a v []).mpr ⟨ha, hv, by simp, rfl⟩
  | cons d rest ih =>
    obtain ⟨k, w⟩ := d
    obtain ⟨hk, hw, hlt, hrest⟩ := (Memory.wf_cons k w rest).mp hm
    unfold Memory.insert
    split
    · rename_i h
      refine (Memory.wf_cons a v _).mpr ⟨ha, hv, fun c hc => ?_, hm⟩
      rcases List.mem_cons.mp hc with rfl | hc
      · exact h
      · exact h.trans (hlt c hc)
    · split
      · rename_i h1 h2
        exact (Memory.wf_cons a v rest).mpr ⟨ha, hv, h2 ▸ hlt, hrest⟩
      · rename_i h1 h2
        refine (Memory.wf_cons k w _).mpr ⟨hk, hw, fun c hc => ?_, ih hrest⟩
        rcases Memory.mem_insert rest a v c hc with rfl | hc
        · show k < a
          omega
        · exact hlt c hc

theorem Memory.wf_erase (m : Memory) (a : Nat) (hm : m.wf = true) : (m.erase a).wf = true := by
  induction m with
  | nil => rfl
  | cons d rest ih =>
    obtain ⟨k, w⟩ := d
    obtain ⟨hk, hw, hlt, hrest⟩ := (Memory.wf_cons k w rest).mp hm
    by_cases h : k = a
    · simpa [Memory.erase, h] using ih hrest
    · have : Memory.erase ((k, w) :: rest) a = (k, w) :: Memory.erase rest a := by simp [Memory.erase, h]
      rw [this]
      exact (Memory.wf_cons k w _).mpr
        ⟨hk, hw, fun c hc => hlt c (List.mem_of_mem_filter hc), ih hrest⟩

/-- A write inside the address space keeps the canonical form. -/
theorem Memory.wf_write (m : Memory) (a : Nat) (v : Byte) (ha : a < Config.memSize) (hm : m.wf = true) :
    (m.write a v).wf = true := by
  unfold Memory.write
  split
  · exact Memory.wf_erase m a hm
  · rename_i h
    exact Memory.wf_insert m a v ha h hm

theorem State.reset_mem_wf : State.reset.mem.wf = true := rfl

/-- In canonical form an address below every listed one is unlisted. -/
theorem Memory.read_of_lt (m : Memory) (a : Nat) (h : ∀ c ∈ m, a < c.1) : m.read a = Config.memReset := by
  induction m with
  | nil => rfl
  | cons d rest ih =>
    obtain ⟨k, w⟩ := d
    have hk : a < k := h (k, w) List.mem_cons_self
    simpa [Memory.read, hk.ne'] using ih fun c hc => h c (List.mem_cons_of_mem _ hc)

/-- Memories in canonical form that read alike at every address are equal data. -/
theorem Memory.eq_of_read_eq (m n : Memory) (hm : m.wf = true) (hn : n.wf = true)
    (h : ∀ a, m.read a = n.read a) : m = n := by
  induction m generalizing n with
  | nil =>
    cases n with
    | nil => rfl
    | cons d rest =>
      obtain ⟨k, w⟩ := d
      exact absurd (by simpa [Memory.read] using (h k).symm) ((Memory.wf_cons k w rest).mp hn).2.1
  | cons d rest ih =>
    obtain ⟨k, w⟩ := d
    obtain ⟨hk, hw, hlt, hrest⟩ := (Memory.wf_cons k w rest).mp hm
    cases n with
    | nil => exact absurd (by simpa [Memory.read] using h k) hw
    | cons e rest' =>
      obtain ⟨k', w'⟩ := e
      obtain ⟨hk', hw', hlt', hrest'⟩ := (Memory.wf_cons k' w' rest').mp hn
      have hkk : k = k' := by
        rcases lt_trichotomy k k' with hl | he | hg
        · refine absurd ?_ hw
          have := h k
          rw [Memory.read_of_lt ((k', w') :: rest') k] at this
          · simpa [Memory.read] using this
          · intro c hc
            rcases List.mem_cons.mp hc with rfl | hc
            · exact hl
            · exact hl.trans (hlt' c hc)
        · exact he
        · refine absurd ?_ hw'
          have := (h k').symm
          rw [Memory.read_of_lt ((k, w) :: rest) k'] at this
          · simpa [Memory.read] using this
          · intro c hc
            rcases List.mem_cons.mp hc with rfl | hc
            · exact hg
            · exact hg.trans (hlt c hc)
      subst hkk
      have hww : w = w' := by simpa [Memory.read] using h k
      subst hww
      refine congrArg _ (ih rest' hrest hrest' fun a => ?_)
      by_cases ha : k = a
      · subst ha
        rw [Memory.read_of_lt rest k hlt, Memory.read_of_lt rest' k hlt']
      · simpa [Memory.read, ha] using h a

/-! ### Bounded reads, and storing several bytes -/

@[simp] theorem Memory.read?_of_le (m : Memory) (a : Nat) (h : a ≤ Config.addrMax) : m.read? a = some (m.read a) :=
  if_pos h

@[simp] theorem Memory.read?_of_gt (m : Memory) (a : Nat) (h : Config.addrMax < a) : m.read? a = none :=
  if_neg (Nat.not_le.mpr h)

/-- Storing bytes inside the address space keeps the canonical form. -/
theorem State.storeBytes_wf (s : State) (a : Nat) (bytes : List Byte) (ha : a + bytes.length ≤ Config.memSize)
    (hm : s.mem.wf = true) : (s.storeBytes a bytes).mem.wf = true := by
  induction bytes generalizing s a with
  | nil => exact hm
  | cons v rest ih =>
    simp only [List.length_cons] at ha
    exact ih _ _ (by omega) (Memory.wf_write s.mem a v (by omega) hm)

/-- Storing bytes changes memory only. -/
theorem State.storeBytes_eq (s : State) (a : Nat) (bytes : List Byte) :
    s.storeBytes a bytes = { s with mem := (s.storeBytes a bytes).mem } := by
  induction bytes generalizing s a with
  | nil => rfl
  | cons v rest ih => exact ih (s.storeByte a v) (a + 1)

/-- What every address reads as after bytes are stored from `a` upward. -/
theorem State.storeBytes_read (s : State) (a : Nat) (bytes : List Byte) (n : Nat) :
    (s.storeBytes a bytes).mem.read n =
      if a ≤ n then (bytes[n - a]?).getD (s.mem.read n) else s.mem.read n := by
  induction bytes generalizing s a with
  | nil => simp [State.storeBytes]
  | cons v rest ih =>
    show ((s.storeByte a v).storeBytes (a + 1) rest).mem.read n = _
    rw [ih, State.storeByte_mem, Memory.read_write]
    rcases lt_trichotomy n a with h | h | h
    · simp [h.ne, Nat.not_le.mpr h, Nat.not_le.mpr (Nat.lt_succ_of_lt h)]
    · subst h
      simp
    · have hs : n - a = (n - (a + 1)) + 1 := by omega
      simp [h.ne', h.le, Nat.succ_le_of_lt h, hs]

end Sys2Proof.Machine
end

