-- ==== Sys2Proof/Laws/Ops.lean ====
section
/-!
SUPPORT. One lemma per shared operation saying all it can do: memory access at the stack pointer, register
operands, and the ALU as arithmetic on numbers.
-/

namespace Sys2Proof.Machine

/-! ### Memory access -/

theorem memRead_of_le (s : State) (a : Nat) (k : Byte → Result) (h : a ≤ Config.addrMax) :
    memRead s a k = k (s.mem.read a) := by
  simp [memRead, h]

theorem memRead_of_gt (s : State) (a : Nat) (k : Byte → Result) (h : Config.addrMax < a) :
    memRead s a k = .next (s.raiseMemBounds a) := by
  simp [memRead, h]

theorem memWrite_of_le (s : State) (a : Nat) (v : Byte) (k : State → Result) (h : a ≤ Config.addrMax) :
    memWrite s a v k = k (s.storeByte a v) := if_pos h

/-- The stack pointer always holds a legal address (43_stack.md R143). -/
theorem State.stackAddr_le (s : State) : s.stackAddr ≤ Config.addrMax :=
  Nat.le_of_lt_succ (s.reg .sp).isLt

@[simp] theorem memRead_stack (s : State) (k : Byte → Result) :
    memRead s s.stackAddr k = k (s.mem.read s.stackAddr) :=
  memRead_of_le s _ k s.stackAddr_le

theorem memWrite_stack (s : State) (v : Byte) (k : State → Result) :
    memWrite s s.stackAddr v k = k (s.storeByte s.stackAddr v) :=
  memWrite_of_le s _ v k s.stackAddr_le

/-! ### Register operands -/

@[simp] theorem regIdx_toByte (r : Reg) : regIdx r.toByte = some r := by cases r <;> rfl

/-- Exactly the bytes 0 to 7 name a register, each its own. -/
theorem regIdx_eq_some (b : Byte) (r : Reg) : regIdx b = some r ↔ b = r.toByte := by
  constructor
  · intro h
    unfold regIdx at h
    split at h <;> simp_all [Reg.toByte] <;> subst h <;> exact BitVec.eq_of_toNat_eq (by simpa)
  · rintro rfl
    exact regIdx_toByte r

theorem regIdx_eq_none (b : Byte) : regIdx b = none ↔ 7 < b.toNat := by
  unfold regIdx
  split <;> simp_all
  omega

theorem isRegIndex_toByte (r : Reg) : isRegIndex r.toByte = true := by cases r <;> rfl

/-- A byte is a register index exactly when it is some register's byte. -/
theorem isRegIndex_iff (b : Byte) : isRegIndex b = true ↔ ∃ r : Reg, b = r.toByte := by
  constructor
  · intro h
    cases hb : regIdx b with
    | none => exact absurd ((regIdx_eq_none b).mp hb) (by simpa [isRegIndex] using h)
    | some r => exact ⟨r, (regIdx_eq_some b r).mp hb⟩
  · rintro ⟨r, rfl⟩
    exact isRegIndex_toByte r

@[simp] theorem withReg_toByte (r : Reg) (s : State) (k : Reg → Result) : withReg r.toByte s k = k r := by
  simp [withReg]

theorem withReg_of_gt (b : Byte) (s : State) (k : Reg → Result) (h : 7 < b.toNat) :
    withReg b s k = .next (s.raise .regBounds (zext9 b)) := by
  simp [withReg, (regIdx_eq_none b).mpr h]

@[simp] theorem withRegs_toByte (ra rb : Reg) (s : State) (k : Reg → Reg → Result) :
    withRegs ra.toByte rb.toByte s k = k ra rb := by
  simp [withRegs]

/-- A register operand is a register, or the instruction raises REG_BOUNDS. -/
theorem withReg_cases (b : Byte) (s : State) (k : Reg → Result) :
    (∃ r, b = r.toByte ∧ withReg b s k = k r) ∨
      (7 < b.toNat ∧ withReg b s k = .next (s.raise .regBounds (zext9 b))) := by
  cases hb : regIdx b with
  | none => exact .inr ⟨(regIdx_eq_none b).mp hb, withReg_of_gt b s k ((regIdx_eq_none b).mp hb)⟩
  | some r =>
    obtain rfl := (regIdx_eq_some b r).mp hb
    exact .inl ⟨r, rfl, withReg_toByte r s k⟩

/-! ### Words -/

@[simp] theorem trunc8_toNat (v : Nat) : (trunc8 v).toNat = v % 256 := by simp [trunc8]

@[simp] theorem zext9_toNat (v : Byte) : (zext9 v).toNat = v.toNat := by
  have := v.isLt
  simp [zext9]
  omega

/-! ### The ALU on numbers (41_alu.md R111 to R120) -/

theorem alu_add_toNat (x y : Byte) : (alu .add x y).toNat = (x.toNat + y.toNat) % 256 := by simp [alu]

theorem alu_mul_toNat (x y : Byte) : (alu .mul x y).toNat = (x.toNat * y.toNat) % 256 := by simp [alu]

theorem alu_not_toNat (x y : Byte) : (alu .not x y).toNat = 255 - x.toNat := by
  simp [alu]
  omega

theorem alu_shl_toNat (x y : Byte) : (alu .shl x y).toNat = (x.toNat * 2 ^ y.toNat) % 256 := by
  simp [alu, Nat.shiftLeft_eq]

theorem alu_shr_toNat (x y : Byte) : (alu .shr x y).toNat = x.toNat / 2 ^ y.toNat := by
  simp only [alu, trunc8_toNat, Nat.shiftRight_eq_div_pow]
  exact Nat.mod_eq_of_lt (lt_of_le_of_lt (Nat.div_le_self _ _) x.isLt)

theorem alu_mod_toNat (x y : Byte) : (alu .mod x y).toNat = x.toNat % y.toNat := by
  simp only [alu, trunc8_toNat]
  exact Nat.mod_eq_of_lt (lt_of_le_of_lt (Nat.mod_le _ _) x.isLt)

end Sys2Proof.Machine
end

