-- ==== Sys2Proof/Laws/Exec.lean ====
section
/-!
SUPPORT. One spec lemma per meaning: what it answers when its register operands are registers, in the words of the
shared operations; and the inversion of `exec`: everything an instruction can answer, said once. No meaning faults or refuses.
-/

namespace Sys2Proof.Machine

variable (s : State) (ra rb : Reg)

theorem execAdd_reg : exec (.add ra.toByte rb.toByte) s = .next (s.aluTo .add ra rb) := withRegs_toByte ra rb s _

theorem execMul_reg : exec (.mul ra.toByte rb.toByte) s = .next (s.aluTo .mul ra rb) := withRegs_toByte ra rb s _

theorem execAnd_reg : exec (.and ra.toByte rb.toByte) s = .next (s.aluTo .and ra rb) := withRegs_toByte ra rb s _

theorem execOr_reg : exec (.or ra.toByte rb.toByte) s = .next (s.aluTo .or ra rb) := withRegs_toByte ra rb s _

theorem execXor_reg : exec (.xor ra.toByte rb.toByte) s = .next (s.aluTo .xor ra rb) := withRegs_toByte ra rb s _

theorem execShl_reg : exec (.shl ra.toByte rb.toByte) s = .next (s.aluTo .shl ra rb) := withRegs_toByte ra rb s _

theorem execShr_reg : exec (.shr ra.toByte rb.toByte) s = .next (s.aluTo .shr ra rb) := withRegs_toByte ra rb s _

theorem execNot_reg (pad : Byte) : exec (.not ra.toByte pad) s = .next (s.aluTo .not ra ra) := withReg_toByte ra s _

theorem execCmp_reg :
    exec (.cmp ra.toByte rb.toByte) s = .next ((s.setFl (compareFlag (s.reg ra) (s.reg rb))).advance 3) :=
  withRegs_toByte ra rb s _

theorem execMod_reg_zero (h : s.reg rb = 0#8) :
    exec (.mod ra.toByte rb.toByte) s = .next ((s.advance 1).halt .modZero) :=
  (withRegs_toByte ra rb s _).trans (if_pos h)

theorem execMod_reg (h : s.reg rb ≠ 0#8) : exec (.mod ra.toByte rb.toByte) s = .next (s.aluTo .mod ra rb) :=
  (withRegs_toByte ra rb s _).trans (if_neg h)

theorem execLdi_reg (imm : Byte) : exec (.ldi ra.toByte imm) s = .next ((s.setReg ra imm).advance 3) :=
  withReg_toByte ra s _

theorem execPrn_reg : exec (.prn ra.toByte) s = .next ((s.emit (s.reg ra)).advance 2) := withReg_toByte ra s _

theorem execPush_reg :
    exec (.push ra.toByte) s = .next ((s.decSp.storeByte s.decSp.stackAddr (s.decSp.reg ra)).advance 2) :=
  (withReg_toByte ra s _).trans (memWrite_stack s.decSp _ _)

theorem execPop_reg :
    exec (.pop ra.toByte) s = .next ((s.setReg ra (s.mem.read s.stackAddr)).incSp.advance 2) :=
  (withReg_toByte ra s _).trans (memRead_stack s _)

theorem execCall_reg (h : s.returnAddr ≤ Config.addrMax) :
    exec (.call ra.toByte) s =
      .next ((s.decSp.storeByte s.decSp.stackAddr (trunc8 s.returnAddr)).jumpTo (s.decSp.reg ra)) :=
  (withReg_toByte ra s _).trans ((if_neg (Nat.not_lt.mpr h)).trans (memWrite_stack s.decSp _ _))

theorem execCall_reg_overflow (h : Config.addrMax < s.returnAddr) :
    exec (.call ra.toByte) s = .next (s.raise .retAddrOverflow (BitVec.ofNat 9 s.returnAddr)) :=
  (withReg_toByte ra s _).trans (if_pos h)

theorem execRet_eq : exec .ret s = .next (s.incSp.jumpTo (s.mem.read s.stackAddr)) := memRead_stack s _

theorem execHlt_eq : exec .hlt s = .next ((s.advance 1).halt .hlt) := rfl

theorem execJmp_reg : exec (.jmp ra.toByte) s = .next (s.jumpTo (s.reg ra)) := withReg_toByte ra s _

theorem execJeq_reg :
    exec (.jeq ra.toByte) s = .next (if s.fl.takesJeq then s.jumpTo (s.reg ra) else s.advance 2) :=
  withReg_toByte ra s _

theorem execJne_reg :
    exec (.jne ra.toByte) s = .next (if s.fl.takesJne then s.jumpTo (s.reg ra) else s.advance 2) :=
  withReg_toByte ra s _

/-! ### Every form: what a meaning can answer, said once -/

/-- Everything an instruction can answer: its effect when its register operands are registers, or REG_BOUNDS with the
first operand byte that is not. -/
inductive Answers : Instr → State → State → Prop where
  | badReg (i : Instr) (s : State) (b : Byte) (h : i.regOperands.find? (fun x => decide (7 < x.toNat)) = some b) :
      Answers i s (s.raise .regBounds (zext9 b))
  | add (s : State) (ra rb : Reg) : Answers (.add ra.toByte rb.toByte) s (s.aluTo .add ra rb)
  | mul (s : State) (ra rb : Reg) : Answers (.mul ra.toByte rb.toByte) s (s.aluTo .mul ra rb)
  | and (s : State) (ra rb : Reg) : Answers (.and ra.toByte rb.toByte) s (s.aluTo .and ra rb)
  | or (s : State) (ra rb : Reg) : Answers (.or ra.toByte rb.toByte) s (s.aluTo .or ra rb)
  | xor (s : State) (ra rb : Reg) : Answers (.xor ra.toByte rb.toByte) s (s.aluTo .xor ra rb)
  | shl (s : State) (ra rb : Reg) : Answers (.shl ra.toByte rb.toByte) s (s.aluTo .shl ra rb)
  | shr (s : State) (ra rb : Reg) : Answers (.shr ra.toByte rb.toByte) s (s.aluTo .shr ra rb)
  | not (s : State) (ra : Reg) (pad : Byte) : Answers (.not ra.toByte pad) s (s.aluTo .not ra ra)
  | mod (s : State) (ra rb : Reg) (h : s.reg rb ≠ 0#8) : Answers (.mod ra.toByte rb.toByte) s (s.aluTo .mod ra rb)
  | modZero (s : State) (ra rb : Reg) (h : s.reg rb = 0#8) :
      Answers (.mod ra.toByte rb.toByte) s ((s.advance 1).halt .modZero)
  | cmp (s : State) (ra rb : Reg) :
      Answers (.cmp ra.toByte rb.toByte) s ((s.setFl (compareFlag (s.reg ra) (s.reg rb))).advance 3)
  | hlt (s : State) : Answers .hlt s ((s.advance 1).halt .hlt)
  | ldi (s : State) (ra : Reg) (imm : Byte) : Answers (.ldi ra.toByte imm) s ((s.setReg ra imm).advance 3)
  | prn (s : State) (ra : Reg) : Answers (.prn ra.toByte) s ((s.emit (s.reg ra)).advance 2)
  | push (s : State) (ra : Reg) :
      Answers (.push ra.toByte) s ((s.decSp.storeByte s.decSp.stackAddr (s.decSp.reg ra)).advance 2)
  | pop (s : State) (ra : Reg) :
      Answers (.pop ra.toByte) s ((s.setReg ra (s.mem.read s.stackAddr)).incSp.advance 2)
  | call (s : State) (ra : Reg) (h : s.returnAddr ≤ Config.addrMax) :
      Answers (.call ra.toByte) s
        ((s.decSp.storeByte s.decSp.stackAddr (trunc8 s.returnAddr)).jumpTo (s.decSp.reg ra))
  | callOverflow (s : State) (ra : Reg) (h : Config.addrMax < s.returnAddr) :
      Answers (.call ra.toByte) s (s.raise .retAddrOverflow (BitVec.ofNat 9 s.returnAddr))
  | ret (s : State) : Answers .ret s (s.incSp.jumpTo (s.mem.read s.stackAddr))
  | jmp (s : State) (ra : Reg) : Answers (.jmp ra.toByte) s (s.jumpTo (s.reg ra))
  | jeq (s : State) (ra : Reg) :
      Answers (.jeq ra.toByte) s (if s.fl.takesJeq then s.jumpTo (s.reg ra) else s.advance 2)
  | jne (s : State) (ra : Reg) :
      Answers (.jne ra.toByte) s (if s.fl.takesJne then s.jumpTo (s.reg ra) else s.advance 2)

theorem toByte_le (r : Reg) : ¬ 7 < r.toByte.toNat := by cases r <;> decide

/-- An instruction with one register operand: the operand is a register, or it is the first bad byte. -/
theorem answers_of_withReg (i : Instr) (a : Byte) (k : Reg → Result) (hi : i.regOperands = [a])
    (he : exec i s = withReg a s k) (h : ∀ r, a = r.toByte → ∃ t, k r = .next t ∧ Answers i s t) :
    ∃ t, exec i s = .next t ∧ Answers i s t := by
  rcases withReg_cases a s k with ⟨r, hr, hk⟩ | ⟨hlt, hk⟩
  · obtain ⟨t, ht, hans⟩ := h r hr
    exact ⟨t, by rw [he, hk, ht], hans⟩
  · exact ⟨_, he.trans hk, .badReg i s a (by simp [hi, hlt])⟩

/-- An instruction with two register operands: both are registers, or the first bad byte is `a` or, after it, `b`. -/
theorem answers_of_withRegs (i : Instr) (a b : Byte) (k : Reg → Reg → Result) (hi : i.regOperands = [a, b])
    (he : exec i s = withRegs a b s k)
    (h : ∀ r r', a = r.toByte → b = r'.toByte → ∃ t, k r r' = .next t ∧ Answers i s t) :
    ∃ t, exec i s = .next t ∧ Answers i s t := by
  rcases withReg_cases a s (fun ra => withReg b s fun rb => k ra rb) with ⟨r, rfl, hk⟩ | ⟨hlt, hk⟩
  · rcases withReg_cases b s (k r) with ⟨r', hr', hk'⟩ | ⟨hlt, hk'⟩
    · obtain ⟨t, ht, hans⟩ := h r r' rfl hr'
      exact ⟨t, by rw [he, withRegs, hk, hk', ht], hans⟩
    · exact ⟨_, by rw [he, withRegs, hk, hk'], .badReg i s b (by simp [hi, hlt, toByte_le])⟩
  · exact ⟨_, he.trans hk, .badReg i s a (by simp [hi, hlt])⟩

/-- Every instruction answers a next state, and one of those `Answers` lists. -/
theorem exec_answers (i : Instr) : ∃ t, exec i s = .next t ∧ Answers i s t := by
  cases i with
  | hlt => exact ⟨_, rfl, .hlt s⟩
  | ret => exact ⟨_, execRet_eq s, .ret s⟩
  | ldi a imm => exact answers_of_withReg s _ a _ rfl rfl fun r hr => ⟨_, rfl, hr ▸ .ldi s r imm⟩
  | prn a => exact answers_of_withReg s _ a _ rfl rfl fun r hr => ⟨_, rfl, hr ▸ .prn s r⟩
  | push a => exact answers_of_withReg s _ a _ rfl rfl fun r hr => ⟨_, memWrite_stack _ _ _, hr ▸ .push s r⟩
  | pop a => exact answers_of_withReg s _ a _ rfl rfl fun r hr => ⟨_, memRead_stack _ _, hr ▸ .pop s r⟩
  | call a =>
    refine answers_of_withReg s _ a _ rfl rfl fun r hr => ?_
    rcases Nat.lt_or_ge Config.addrMax s.returnAddr with h | h
    · exact ⟨_, if_pos h, hr ▸ .callOverflow s r h⟩
    · exact ⟨_, (if_neg (Nat.not_lt.mpr h)).trans (memWrite_stack _ _ _), hr ▸ .call s r h⟩
  | jmp a => exact answers_of_withReg s _ a _ rfl rfl fun r hr => ⟨_, rfl, hr ▸ .jmp s r⟩
  | jeq a => exact answers_of_withReg s _ a _ rfl rfl fun r hr => ⟨_, rfl, hr ▸ .jeq s r⟩
  | jne a => exact answers_of_withReg s _ a _ rfl rfl fun r hr => ⟨_, rfl, hr ▸ .jne s r⟩
  | not a pad => exact answers_of_withReg s _ a _ rfl rfl fun r hr => ⟨_, rfl, hr ▸ .not s r pad⟩
  | mod a b =>
    refine answers_of_withRegs s _ a b _ rfl rfl fun r r' hr hr' => ?_
    by_cases h : s.reg r' = 0#8
    · exact ⟨_, if_pos h, hr ▸ hr' ▸ .modZero s r r' h⟩
    · exact ⟨_, if_neg h, hr ▸ hr' ▸ .mod s r r' h⟩
  | add a b => exact answers_of_withRegs s _ a b _ rfl rfl fun r r' hr hr' => ⟨_, rfl, hr ▸ hr' ▸ .add s r r'⟩
  | mul a b => exact answers_of_withRegs s _ a b _ rfl rfl fun r r' hr hr' => ⟨_, rfl, hr ▸ hr' ▸ .mul s r r'⟩
  | and a b => exact answers_of_withRegs s _ a b _ rfl rfl fun r r' hr hr' => ⟨_, rfl, hr ▸ hr' ▸ .and s r r'⟩
  | or a b => exact answers_of_withRegs s _ a b _ rfl rfl fun r r' hr hr' => ⟨_, rfl, hr ▸ hr' ▸ .or s r r'⟩
  | xor a b => exact answers_of_withRegs s _ a b _ rfl rfl fun r r' hr hr' => ⟨_, rfl, hr ▸ hr' ▸ .xor s r r'⟩
  | shl a b => exact answers_of_withRegs s _ a b _ rfl rfl fun r r' hr hr' => ⟨_, rfl, hr ▸ hr' ▸ .shl s r r'⟩
  | shr a b => exact answers_of_withRegs s _ a b _ rfl rfl fun r r' hr hr' => ⟨_, rfl, hr ▸ hr' ▸ .shr s r r'⟩
  | cmp a b => exact answers_of_withRegs s _ a b _ rfl rfl fun r r' hr hr' => ⟨_, rfl, hr ▸ hr' ▸ .cmp s r r'⟩

/-- The inversion of `exec`: a next state is one `Answers` lists. -/
theorem exec_cases (i : Instr) (t : State) (h : exec i s = .next t) : Answers i s t := by
  obtain ⟨t', ht, hans⟩ := exec_answers s i
  rw [h] at ht
  cases ht
  exact hans

/-! ### The ALU's state -/

@[simp] theorem State.reg_aluTo (op : AluOp) (r : Reg) :
    (s.aluTo op ra rb).reg r = if r = ra then alu op (s.reg ra) (s.reg rb) else s.reg r := by
  simp [State.aluTo]

@[simp] theorem State.aluTo_mem (op : AluOp) : (s.aluTo op ra rb).mem = s.mem := rfl

@[simp] theorem State.aluTo_pc (op : AluOp) : (s.aluTo op ra rb).pc = s.pc + BitVec.ofNat 9 3 := rfl

@[simp] theorem State.aluTo_fl (op : AluOp) : (s.aluTo op ra rb).fl = s.fl := rfl

@[simp] theorem State.aluTo_phase (op : AluOp) : (s.aluTo op ra rb).phase = s.phase := rfl

@[simp] theorem State.aluTo_ir (op : AluOp) : (s.aluTo op ra rb).ir = s.ir := rfl

@[simp] theorem State.aluTo_haltCause (op : AluOp) : (s.aluTo op ra rb).haltCause = s.haltCause := rfl

@[simp] theorem State.aluTo_faultCause (op : AluOp) : (s.aluTo op ra rb).faultCause = s.faultCause := rfl

@[simp] theorem State.aluTo_faultInfo (op : AluOp) : (s.aluTo op ra rb).faultInfo = s.faultInfo := rfl

@[simp] theorem State.aluTo_out (op : AluOp) : (s.aluTo op ra rb).out = s.out := rfl

end Sys2Proof.Machine
end

