-- ==== Sys2Proof/Laws/PerInstr.lean ====
section
/-!
SUPPORT. The family `EncodedLength`: the encoding of every instruction starts with its mnemonic's opcode and has the
length that opcode alone determines (30_encoding.md R77).
-/

namespace Sys2Proof.Laws.EncodedLength

/-- The first byte of the encoding decodes to the instruction's mnemonic, whose format gives the number of bytes. -/
def Statement (i : Instr) : Prop :=
  ∃ op rest, encode i = op :: rest ∧ decodeOpcode op = some i.mnemonic ∧
    (encode i).length = i.mnemonic.format.length

/-- The statement from the two laws of encodings that hold of every instruction. -/
theorem of_encode (i : Instr) : Statement i :=
  ⟨i.mnemonic.opcode, i.operandBytes, rfl, decodeOpcode_opcode i.mnemonic, encode_length i⟩

theorem hlt : Statement .hlt := of_encode _
theorem ldi (a imm : Byte) : Statement (.ldi a imm) := of_encode _
theorem prn (a : Byte) : Statement (.prn a) := of_encode _
theorem mul (a b : Byte) : Statement (.mul a b) := of_encode _
theorem push (a : Byte) : Statement (.push a) := of_encode _
theorem pop (a : Byte) : Statement (.pop a) := of_encode _
theorem call (a : Byte) : Statement (.call a) := of_encode _
theorem ret : Statement .ret := of_encode _
theorem add (a b : Byte) : Statement (.add a b) := of_encode _
theorem cmp (a b : Byte) : Statement (.cmp a b) := of_encode _
theorem jmp (a : Byte) : Statement (.jmp a) := of_encode _
theorem jeq (a : Byte) : Statement (.jeq a) := of_encode _
theorem jne (a : Byte) : Statement (.jne a) := of_encode _
theorem and (a b : Byte) : Statement (.and a b) := of_encode _
theorem or (a b : Byte) : Statement (.or a b) := of_encode _
theorem xor (a b : Byte) : Statement (.xor a b) := of_encode _
theorem not (a pad : Byte) : Statement (.not a pad) := of_encode _
theorem shl (a b : Byte) : Statement (.shl a b) := of_encode _
theorem shr (a b : Byte) : Statement (.shr a b) := of_encode _
theorem mod (a b : Byte) : Statement (.mod a b) := of_encode _

end Sys2Proof.Laws.EncodedLength
end

