-- ==== Sys2Proof/Laws/Step.lean ====
section
/-!
SUPPORT. What a step can do, said once: outside RUNNING it answers the same state; in RUNNING it executes the decoded
instruction or raises the fault of the fetch. And what the fetch window holds.
-/

namespace Sys2Proof.Machine

/-! ### The fetch window -/

theorem latchOpcode_of_le (s : State) (h : s.pc.toNat ≤ Config.addrMax) :
    latchOpcode s = s.setIr (s.mem.read s.pc.toNat) := by
  simp [latchOpcode, h]

theorem latchOpcode_of_gt (s : State) (h : Config.addrMax < s.pc.toNat) : latchOpcode s = s := by
  simp [latchOpcode, h]

/-- The fetch changes the instruction register only. -/
theorem latchOpcode_eq (s : State) : latchOpcode s = s.setIr (latchOpcode s).ir := by
  rcases Nat.lt_or_ge Config.addrMax s.pc.toNat with h | h
  · rw [latchOpcode_of_gt s h]
    rfl
  · rw [latchOpcode_of_le s h]
    rfl

theorem fetchWindow_none (s : State) (h : 255 < s.pc.toNat) : fetchWindow s = [] := by
  simp [fetchWindow, Memory.read?, Config.addrMax]
  omega

theorem fetchWindow_one (s : State) (h : s.pc.toNat = 255) : fetchWindow s = [s.mem.read 255] := by
  simp [fetchWindow, Memory.read?, Config.addrMax, h]

theorem fetchWindow_two (s : State) (h : s.pc.toNat = 254) : fetchWindow s = [s.mem.read 254, s.mem.read 255] := by
  simp [fetchWindow, Memory.read?, Config.addrMax, h]

theorem fetchWindow_three (s : State) (h : s.pc.toNat ≤ 253) :
    fetchWindow s = [s.mem.read s.pc.toNat, s.mem.read (s.pc.toNat + 1), s.mem.read (s.pc.toNat + 2)] := by
  have h0 : s.pc.toNat ≤ Config.addrMax := Nat.le_trans (by omega) (Nat.le_refl 255)
  have h1 : s.pc.toNat + 1 ≤ Config.addrMax := Nat.le_trans (by omega) (Nat.le_refl 255)
  have h2 : s.pc.toNat + 2 ≤ Config.addrMax := Nat.le_trans (by omega) (Nat.le_refl 255)
  simp [fetchWindow, h0, h1, h2]

/-- Byte `k` of the fetch window is the cell `k` past the pc, when that cell exists. -/
theorem fetchWindow_getElem? (s : State) (k : Nat) (hk : k < Config.maxLength) (h : s.pc.toNat + k ≤ 255) :
    (fetchWindow s)[k]? = some (s.mem.read (s.pc.toNat + k)) := by
  rcases Nat.lt_or_ge 253 s.pc.toNat with h3 | h3
  · rcases (by omega : s.pc.toNat = 254 ∨ s.pc.toNat = 255) with h4 | h4
    · obtain rfl | rfl : k = 0 ∨ k = 1 := by omega
      all_goals simp [fetchWindow_two s h4, h4]
    · obtain rfl : k = 0 := by omega
      simp [fetchWindow_one s h4, h4]
  · rw [fetchWindow_three s h3]
    obtain rfl | rfl | rfl : k = 0 ∨ k = 1 ∨ k = 2 := by
      simp only [Config.maxLength] at hk
      omega
    all_goals rfl

/-! ### The step -/

theorem step_running (s : State) (h : s.phase = .running) : step s = runStep s := by simp [step, h]

theorem step_not_running (s : State) (h : s.phase ≠ .running) : step s = .next s := by
  unfold step
  split
  · exact absurd ‹_› h
  all_goals rfl

/-- Everything a step can answer. -/
theorem step_cases (s : State) :
    (s.phase ≠ .running ∧ step s = .next s) ∨
      (s.phase = .running ∧
        ((∃ i rest, decode (fetchWindow s) = .ok (i, rest) ∧ step s = exec i (latchOpcode s)) ∨
          ∃ e, decode (fetchWindow s) = .error e ∧ step s = .next (fetchFault e (latchOpcode s)))) := by
  by_cases h : s.phase = .running
  · refine .inr ⟨h, ?_⟩
    rw [step_running s h, runStep]
    cases hd : decode (fetchWindow s) with
    | ok p => exact .inl ⟨p.1, p.2, rfl, rfl⟩
    | error e => exact .inr ⟨e, rfl, rfl⟩
  · exact .inl ⟨h, step_not_running s h⟩

end Sys2Proof.Machine
end

