-- ==== Sys2Proof/Laws/Run.lean ====
section
/-!
SUPPORT. Runs of several steps: one step at a time, so that a run is an induction on its length.
-/

namespace Sys2Proof.Machine

theorem run_succ_of_next (M : Host.Core) (n : Nat) (s t : M.State) (h : M.step s = .next t) :
    M.run (n + 1) s = M.run n t := by
  rw [Host.Core.run, h]

/-- A run of `n + 1` steps whose first step answers a next state is a run of `n` steps from that state. -/
theorem core_run_succ (n : Nat) (s t : State) (h : step s = .next t) : core.run (n + 1) s = core.run n t :=
  run_succ_of_next core n s t h

end Sys2Proof.Machine
end

