-- ==== Sys2Proof/Tests/Slice0.lean ====
section
/-!
SUPPORT. Tests: expected values are those of spec/95_test_vectors.md, the worked examples of the instruction rules,
and words written out from the encodings of 30_encoding.md. Then, for every statement that has hypotheses, a
concrete state and operands that meet them, one for each clause.
-/

namespace Sys2Proof.Tests

open Sys2Proof Sys2Proof.Machine

/-- A running engine with bytes stored from the pc upward, all else as after reset. -/
def at_ (pc : Word9) (bytes : List Byte) : State :=
  { State.reset.storeBytes pc.toNat bytes with pc := pc, phase := .running }

/-- The next state, if the answer is one. -/
def next? (o : Result) : Option State :=
  match o with
  | .next t => some t
  | .fault _ => none
  | .refused _ => none

/-- What one step leaves, seen through `f`. -/
def after {α : Type} (s : State) (f : State → α) : Option α := (next? (step s)).map f

/-! ## Well-formedness: a register operand byte above 7 is ill formed, in every place a register operand stands -/

theorem test_wellFormed_a : [Instr.ldi 8#8 0#8, .prn 8#8, .push 8#8, .pop 8#8, .call 8#8, .jmp 8#8, .jeq 8#8,
    .jne 8#8, .not 8#8 0#8, .add 8#8 0#8, .mul 8#8 0#8, .cmp 8#8 0#8, .and 8#8 0#8, .or 8#8 0#8, .xor 8#8 0#8,
    .shl 8#8 0#8, .shr 8#8 0#8, .mod 8#8 0#8].all (fun i => !i.wellFormed) = true := by decide

theorem test_wellFormed_b : [Instr.add 0#8 8#8, .mul 0#8 8#8, .cmp 0#8 8#8, .and 0#8 8#8, .or 0#8 8#8, .xor 0#8 8#8,
    .shl 0#8 255#8, .shr 0#8 8#8, .mod 0#8 9#8].all (fun i => !i.wellFormed) = true := by decide

theorem test_wellFormed_accepts : [Instr.hlt, .ret, .ldi 7#8 255#8, .not 7#8 255#8, .prn 7#8, .add 7#8 7#8].all
    (fun i => i.wellFormed) = true := by decide

/-! ## Decoding: words from 30_encoding.md R76 and R81 -/

theorem test_decode_hlt : decode [0b00000001#8] = .ok (.hlt, []) := by decide
theorem test_decode_ldi : decode [0b10000010#8, 0x00#8, 0x08#8, 0xFF#8] = .ok (.ldi 0#8 8#8, [0xFF#8]) := by decide
theorem test_decode_prn : decode [0b01000111#8, 0x06#8] = .ok (.prn 6#8, []) := by decide
theorem test_decode_mul : decode [0b10100010#8, 0x01#8, 0x02#8] = .ok (.mul 1#8 2#8, []) := by decide
theorem test_decode_push : decode [0b01000101#8, 0x05#8] = .ok (.push 5#8, []) := by decide
theorem test_decode_pop : decode [0b01000110#8, 0x04#8] = .ok (.pop 4#8, []) := by decide
theorem test_decode_call : decode [0b01010000#8, 0x03#8] = .ok (.call 3#8, []) := by decide
theorem test_decode_ret : decode [0b00010001#8, 0x02#8] = .ok (.ret, [0x02#8]) := by decide
theorem test_decode_add : decode [0b10100000#8, 0x03#8, 0x04#8] = .ok (.add 3#8 4#8, []) := by decide
theorem test_decode_cmp : decode [0b10100111#8, 0x05#8, 0x06#8] = .ok (.cmp 5#8 6#8, []) := by decide
theorem test_decode_jmp : decode [0b01010100#8, 0x01#8] = .ok (.jmp 1#8, []) := by decide
theorem test_decode_jeq : decode [0b01010101#8, 0x02#8] = .ok (.jeq 2#8, []) := by decide
theorem test_decode_jne : decode [0b01010110#8, 0x03#8] = .ok (.jne 3#8, []) := by decide
theorem test_decode_and : decode [0b10101000#8, 0x01#8, 0x02#8] = .ok (.and 1#8 2#8, []) := by decide
theorem test_decode_or : decode [0b10101010#8, 0x01#8, 0x02#8] = .ok (.or 1#8 2#8, []) := by decide
theorem test_decode_xor : decode [0b10101011#8, 0x01#8, 0x02#8] = .ok (.xor 1#8 2#8, []) := by decide
theorem test_decode_not : decode [0b01101001#8, 0x02#8, 0xFF#8] = .ok (.not 2#8 0xFF#8, []) := by decide
theorem test_decode_shl : decode [0b10101100#8, 0x01#8, 0x02#8] = .ok (.shl 1#8 2#8, []) := by decide
theorem test_decode_shr : decode [0b10101101#8, 0x01#8, 0x02#8] = .ok (.shr 1#8 2#8, []) := by decide
theorem test_decode_mod : decode [0b10100100#8, 0x01#8, 0x02#8] = .ok (.mod 1#8 2#8, []) := by decide

/-- FLT 3 to FLT 11: neighbours of opcodes are unknown. -/
theorem test_decode_unknown : [0x00#8, 0x02#8, 0x83#8, 0xA1#8, 0xA3#8, 0x65#8, 0x48#8, 0x13#8, 0x57#8, 0x84#8,
    0xFF#8].all (fun op => decide (decode [op, 0#8, 0#8] = .error (.unknownOpcode op))) = true := by decide

theorem test_decode_short : decode [] = .error (.missingByte 0) ∧ decode [0x47#8] = .error (.missingByte 1) ∧
    decode [0xA0#8, 9#8] = .error (.missingByte 2) := by decide

/-- Bit 0 of a table word is bit 0 of the opcode byte; the second byte is bits 15 to 8. -/
theorem test_table_word : decodeTableWord 24 0x0905A0 = some (.add 5#8 9#8) ∧
    decodeTableWord 8 0xFFFF82 = some (.ldi 0#8 0#8) ∧ decodeTableWord 8 0x83 = none := by decide

/-- The host's probe on the reset state: the placed word is the first instruction that runs. -/
theorem test_placed_word_runs : after (State.reset.withFetchWord 24 0x080082) (fun t => (t.reg .r0, t.pc, t.phase)) =
    some (8#8, 3#9, .running) := by decide

/-! ## One step: the vectors of 95_test_vectors.md -/

theorem test_add_wraps : after (((at_ 0#9 [0xA0#8, 0#8, 1#8]).setReg .r0 0xC8#8).setReg .r1 0x64#8)
    (fun t => (t.reg .r0, t.reg .r1, t.pc)) = some (0x2C#8, 0x64#8, 3#9) := by decide
theorem test_add_same : after ((at_ 0#9 [0xA0#8, 2#8, 2#8]).setReg .r2 0x80#8) (fun t => t.reg .r2) = some 0#8 := by
  decide
theorem test_mul_wraps : after (((at_ 6#9 [0xA2#8, 0#8, 1#8]).setReg .r0 20#8).setReg .r1 13#8)
    (fun t => (t.reg .r0, t.pc)) = some (4#8, 9#9) := by decide
theorem test_cmp_equal : after (((at_ 17#9 [0xA7#8, 0#8, 2#8]).setReg .r0 3#8).setReg .r2 3#8)
    (fun t => (t.fl, t.reg .r0, t.pc)) = some (.equal, 3#8, 20#9) := by decide
theorem test_cmp_unequal : after ((((at_ 0#9 [0xA7#8, 0#8, 1#8]).setReg .r0 0xFF#8).setFl .equal))
    (fun t => t.fl) = some .unequal := by decide
theorem test_and : after (((at_ 0#9 [0xA8#8, 0#8, 1#8]).setReg .r0 0xF0#8).setReg .r1 0x3C#8)
    (fun t => (t.reg .r0, t.pc)) = some (0x30#8, 3#9) := by decide
theorem test_or : after (((at_ 0#9 [0xAA#8, 0#8, 1#8]).setReg .r0 0xF0#8).setReg .r1 0x3C#8)
    (fun t => (t.reg .r0, t.pc)) = some (0xFC#8, 3#9) := by decide
theorem test_xor : after (((at_ 0#9 [0xAB#8, 0#8, 1#8]).setReg .r0 0xF0#8).setReg .r1 0x3C#8)
    (fun t => (t.reg .r0, t.pc)) = some (0xCC#8, 3#9) := by decide
theorem test_not_pad : after ((at_ 0#9 [0x69#8, 3#8, 0xFF#8]).setReg .r3 0xA5#8) (fun t => (t.reg .r3, t.pc)) =
    some (0x5A#8, 3#9) := by decide
theorem test_not_is_three_bytes : after (at_ 0xFE#9 [0x69#8, 0#8])
    (fun t => (t.phase, t.faultCause, t.faultInfo, t.pc)) = some (.faulted, .memBounds, 0x100#9, 0xFE#9) := by decide
theorem test_shl : after (((at_ 0#9 [0xAC#8, 0#8, 1#8]).setReg .r0 0x81#8).setReg .r1 1#8)
    (fun t => (t.reg .r0, t.pc)) = some (2#8, 3#9) := by decide
theorem test_shl_nine : after (((at_ 0#9 [0xAC#8, 0#8, 1#8]).setReg .r0 1#8).setReg .r1 9#8)
    (fun t => t.reg .r0) = some 0#8 := by decide
theorem test_shr : after (((at_ 0#9 [0xAD#8, 0#8, 1#8]).setReg .r0 0x81#8).setReg .r1 1#8)
    (fun t => (t.reg .r0, t.pc)) = some (0x40#8, 3#9) := by decide
theorem test_shr_eight : after (((at_ 0#9 [0xAD#8, 0#8, 1#8]).setReg .r0 0xFF#8).setReg .r1 8#8)
    (fun t => t.reg .r0) = some 0#8 := by decide
theorem test_mod : after (((at_ 10#9 [0xA4#8, 1#8, 2#8]).setReg .r1 17#8).setReg .r2 5#8)
    (fun t => (t.reg .r1, t.pc, t.phase)) = some (2#8, 13#9, .running) := by decide
theorem test_mod_zero : after ((at_ 10#9 [0xA4#8, 1#8, 2#8]).setReg .r1 17#8)
    (fun t => (t.reg .r1, t.pc, t.phase, t.haltCause, t.faultCause)) =
      some (17#8, 11#9, .halted, .modZero, .none) := by decide
theorem test_hlt_at_top : after (at_ 0xFF#9 [0x01#8]) (fun t => (t.pc, t.phase, t.haltCause)) =
    some (0x100#9, .halted, .hlt) := by decide
theorem test_ldi_sp : after (at_ 0#9 [0x82#8, 7#8, 0xFF#8]) (fun t => (t.reg .sp, t.pc)) = some (0xFF#8, 3#9) := by
  decide
theorem test_ldi_past_top : after (at_ 0xFE#9 [0x82#8, 0#8])
    (fun t => (t.faultCause, t.faultInfo, t.pc, t.ir, t.reg .r0)) =
      some (.memBounds, 0x100#9, 0xFE#9, 0x82#8, 0#8) := by decide
theorem test_prn : after ((((at_ 9#9 [0x47#8, 0#8]).setReg .r0 0x11#8).emit 5#8)) (fun t => (t.out, t.pc)) =
    some ([5#8, 17#8], 0x0B#9) := by decide
theorem test_push : after ((at_ 3#9 [0x45#8, 0#8]).setReg .r0 0xAB#8)
    (fun t => (t.reg .sp, t.byteAt 0xF3, t.byteAt 0xF4, t.pc)) = some (0xF3#8, 0xAB#8, 0#8, 5#9) := by decide
theorem test_push_r7 : after (at_ 0#9 [0x45#8, 7#8]) (fun t => (t.reg .sp, t.byteAt 0xF3)) = some (0xF3#8, 0xF3#8) := by
  decide
theorem test_pop : after (((at_ 5#9 [0x46#8, 1#8]).setReg .sp 0xF3#8).storeByte 0xF3 0xAB#8)
    (fun t => (t.reg .r1, t.reg .sp, t.byteAt 0xF3, t.pc)) = some (0xAB#8, 0xF4#8, 0xAB#8, 7#9) := by decide
theorem test_pop_r7 : after (((at_ 0#9 [0x46#8, 7#8]).setReg .sp 0xF3#8).storeByte 0xF3 0x20#8)
    (fun t => t.reg .sp) = some 0x21#8 := by decide
theorem test_call : after ((at_ 6#9 [0x50#8, 1#8]).setReg .r1 0x0B#8)
    (fun t => (t.reg .sp, t.byteAt 0xF3, t.pc)) = some (0xF3#8, 8#8, 0x0B#9) := by decide
theorem test_call_r7 : after (at_ 6#9 [0x50#8, 7#8]) (fun t => (t.byteAt 0xF3, t.pc)) = some (8#8, 0xF3#9) := by decide
theorem test_ret : after (((at_ 0x0E#9 [0x11#8]).setReg .sp 0xFF#8).storeByte 0xFF 0x44#8)
    (fun t => (t.pc, t.reg .sp)) = some (0x44#9, 0#8) := by decide
theorem test_jmp : after ((at_ 0x14#9 [0x54#8, 3#8]).setReg .r3 0x0C#8) (fun t => t.pc) = some 0x0C#9 := by decide
theorem test_jeq : after (((at_ 0x10#9 [0x55#8, 4#8]).setReg .r4 0x40#8).setFl .equal) (fun t => t.pc) =
    some 0x40#9 := by decide
theorem test_jeq_unset : after ((at_ 0x10#9 [0x55#8, 4#8]).setReg .r4 0x40#8) (fun t => t.pc) = some 0x12#9 := by decide
theorem test_jne : after (((at_ 0x10#9 [0x56#8, 4#8]).setReg .r4 0x40#8).setFl .unequal) (fun t => t.pc) =
    some 0x40#9 := by decide
theorem test_jne_unset : after ((at_ 0x10#9 [0x56#8, 4#8]).setReg .r4 0x40#8) (fun t => t.pc) = some 0x12#9 := by decide

/-- FLT 1: an empty memory faults on the first step. -/
theorem test_empty_memory : after (hostRun State.reset) (fun t => (t.phase, t.faultCause, t.faultInfo, t.ir, t.pc)) =
    some (.faulted, .unknownOpcode, 0#9, 0#8, 0#9) := by decide
/-- FLT 12: the opcode fetch at 256 faults and keeps `ir`. -/
theorem test_fetch_at_256 : after ((at_ 0x100#9 []).setIr 0x82#8) (fun t => (t.faultCause, t.faultInfo, t.ir, t.pc)) =
    some (.memBounds, 0x100#9, 0x82#8, 0x100#9) := by decide
/-- FLT 14: the fetch of `b` fails before `a` = 9 is checked. -/
theorem test_fetch_before_check : after (at_ 0xFE#9 [0xA0#8, 9#8]) (fun t => (t.faultCause, t.faultInfo)) =
    some (.memBounds, 0x100#9) := by decide
/-- FLT 15: `a` is checked before `b`. -/
theorem test_check_a_first : after (at_ 0#9 [0xA4#8, 8#8, 9#8]) (fun t => (t.faultCause, t.faultInfo)) =
    some (.regBounds, 8#9) := by decide
/-- MOD 9: the operand check precedes the zero test. -/
theorem test_check_before_zero_test : after (at_ 0#9 [0xA4#8, 0#8, 9#8]) (fun t => (t.phase, t.faultInfo)) =
    some (.faulted, 9#9) := by decide
/-- CALL 6 and CALL 8. -/
theorem test_call_overflow : after (at_ 0xFE#9 [0x50#8, 1#8]) (fun t => (t.faultCause, t.faultInfo, t.reg .sp)) =
      some (.retAddrOverflow, 0x100#9, 0xF4#8) ∧
    after (at_ 0xFE#9 [0x50#8, 9#8]) (fun t => (t.faultCause, t.faultInfo)) = some (.regBounds, 9#9) := by decide
/-- BR 4: a JNE that would not jump still checks its operand. -/
theorem test_jne_checks : after (at_ 0#9 [0x56#8, 0xFF#8]) (fun t => (t.faultCause, t.faultInfo)) =
    some (.regBounds, 0xFF#9) := by decide

/-- The assembly forms of 30_encoding.md R81. -/
theorem test_assemble : assembleBytes ⟨.ldi, [.reg .r0, .imm 8#8]⟩ = some [0x82#8, 0#8, 8#8] ∧
    assembleBytes ⟨.not, [.reg .r2]⟩ = some [0x69#8, 2#8, 0#8] ∧ assembleBytes ⟨.hlt, [.reg .r0]⟩ = none := by decide

/-- The ends of runs of 60_exceptions.md R188. -/
theorem test_run_end : after (at_ 0#9 [0x01#8]) runEnd = some (some .normal) ∧
    after (at_ 0#9 [0xA4#8, 0#8, 1#8]) runEnd = some (some .zeroDivisor) ∧
    after (at_ 0#9 [0xFF#8]) runEnd = some (some .abnormal) ∧ runEnd State.reset = none := by decide

/-! ## Witnesses: concrete states that meet the hypotheses of the statements, clause by clause -/

theorem witness_DecodeAcceptsExactlyTheEncodings :
    decode [0x11#8, 0x00#8] = .ok (.ret, [0x00#8]) ∧ [0x11#8, 0x00#8] = encode .ret ++ [0x00#8] := by decide
theorem witness_DisassemblyInvertsAssembly :
    assemble ⟨.add, [.reg .r7, .reg .r0]⟩ = some (.add 7#8 0#8) := by decide
theorem witness_StepRunsTheDecodedInstruction :
    (at_ 0xFD#9 [0x82#8, 0#8, 5#8]).phase = .running ∧
      decode (fetchWindow (at_ 0xFD#9 [0x82#8, 0#8, 5#8])) = .ok (.ldi 0#8 5#8, []) := by decide
theorem witness_StepRunsTheBytesAtThePc :
    (at_ 0xFD#9 [0x82#8, 0#8, 5#8]).phase = .running ∧
      (at_ 0xFD#9 [0x82#8, 0#8, 5#8]).pc.toNat + (encode (.ldi 0#8 5#8)).length ≤ 256 ∧
        ∀ k, k < (encode (.ldi 0#8 5#8)).length →
          (encode (.ldi 0#8 5#8))[k]? = some ((at_ 0xFD#9 [0x82#8, 0#8, 5#8]).byteAt (0xFD + k)) := by decide
theorem witness_UnknownOpcodeRecordsTheByte :
    (at_ 0xFF#9 [0xFF#8]).phase = .running ∧ (at_ 0xFF#9 [0xFF#8]).pc.toNat ≤ 255 ∧
      (at_ 0xFF#9 [0xFF#8]).byteAt (at_ 0xFF#9 [0xFF#8]).pc.toNat ∉ knownOpcodes := by decide
theorem witness_FetchPastTheTopFaults_opcode :
    (at_ 0x100#9 []).phase = .running ∧ (at_ 0x100#9 []).pc.toNat = 256 := by decide
theorem witness_FetchPastTheTopFaults_a :
    (at_ 0xFF#9 [0x47#8]).pc.toNat = 255 ∧ decodeOpcode ((at_ 0xFF#9 [0x47#8]).byteAt 255) = some .prn ∧
      2 ≤ (Mnemonic.format .prn).length := by decide
theorem witness_FetchPastTheTopFaults_b :
    (at_ 0xFE#9 [0x69#8]).pc.toNat = 254 ∧ decodeOpcode ((at_ 0xFE#9 [0x69#8]).byteAt 254) = some .not ∧
      (Mnemonic.format .not).length = 3 := by decide
theorem witness_StepOutsideRunningChangesNothing :
    State.reset.phase ≠ .running ∧ (State.reset.halt .hlt).phase ≠ .running ∧
      (State.reset.raise .memBounds 256#9).phase ≠ .running := by decide
theorem witness_EndedRunsStayAsTheyAre :
    (State.reset.halt .modZero).ended ∧ (State.reset.raise .regBounds 9#9).ended :=
  ⟨.inl rfl, .inr rfl⟩
theorem witness_InstructionRegisterHoldsTheLastOpcode :
    after (at_ 0xFF#9 [0x01#8]) (fun t => t.ir) = some 0x01#8 ∧
      after (at_ 0x100#9 []) (fun t => t.ir) = some 0x00#8 := by decide
theorem witness_ShiftsUseTheWholeCount : 8 ≤ ((at_ 0#9 []).setReg .r1 8#8 |>.reg .r1).toNat := by decide
theorem witness_ModLeavesTheRemainderOrHalts :
    ((at_ 0#9 []).setReg .r1 1#8).reg .r1 ≠ 0#8 ∧ (at_ 0#9 []).reg .r1 = 0#8 := by decide
theorem witness_SameRegisterForBothOperands :
    ((at_ 0#9 []).setReg .r1 1#8).reg .r1 ≠ 0#8 ∧ (at_ 0#9 []).reg .r1 = 0#8 := by decide
theorem witness_PopLoadsThenIncrements : Reg.r0 ≠ .sp ∧ Reg.r7 = .sp := by decide
theorem witness_PushThenPopIsARoundTrip : Reg.r0 ≠ .sp ∧ Reg.r6 ≠ .sp := by decide
theorem witness_PushesLeaveTheProgramBytes :
    State.reset.reg .sp = 0xF4#8 ∧ (List.replicate 0xF4 Reg.r0).length ≤ 0xF4 :=
  ⟨rfl, by rw [List.length_replicate]⟩
/-- PUSH r0 at 8 with SP 0x0B stores into cell 0x0A, the next instruction: here an ADD, whose operand bytes follow. -/
theorem witness_PushedByteIsFetchedNext :
    (((at_ 8#9 [0x45#8, 0#8, 0#8, 1#8, 2#8]).setReg .sp 0x0B#8).setReg .r0 0xA0#8).phase = .running ∧
      (next? (exec (.push 0#8) (((at_ 8#9 [0x45#8, 0#8, 0#8, 1#8, 2#8]).setReg .sp 0x0B#8).setReg .r0 0xA0#8))).map
        (fun t => (t.pc.toNat, t.byteAt 0x0A, t.byteAt 0x0B, t.byteAt 0x0C)) = some (0x0A, 0xA0#8, 1#8, 2#8) ∧
      (((at_ 8#9 []).setReg .sp 0x0B#8).decSp.stackAddr) = 0x0A ∧ (Instr.add 1#8 2#8).mnemonic.opcode = 0xA0#8 := by
  decide
theorem witness_PushedByteIsFetchedNext_unknown :
    PushesByte (.push 0#8) ((at_ 8#9 []).setReg .sp 0x0B#8 |>.setReg .r0 0xFF#8) 0xFF#8 ∧ 0xFF#8 ∉ knownOpcodes ∧
      (next? (exec (.push 0#8) ((at_ 8#9 []).setReg .sp 0x0B#8 |>.setReg .r0 0xFF#8))).map (fun t => t.pc.toNat) =
        some 0x0A :=
  ⟨.inl ⟨.r0, rfl, rfl⟩, by decide, by decide⟩
/-- PUSH r7 at 0 with SP 3 stores the decremented SP, 2, into cell 2, the next instruction. -/
theorem witness_PushedByteIsFetchedNext_r7 :
    PushesByte (.push 7#8) ((at_ 0#9 []).setReg .sp 3#8) 2#8 ∧ ((at_ 0#9 []).setReg .sp 3#8).decSp.stackAddr = 2 ∧
      (next? (exec (.push 7#8) ((at_ 0#9 []).setReg .sp 3#8))).map (fun t => t.pc.toNat) = some 2 :=
  ⟨.inl ⟨.r7, rfl, rfl⟩, by decide, by decide⟩
/-- CALL r7 jumps to the cell it has just written, which holds the return address; at 0x45 that is the byte of PRN. -/
theorem witness_PushedByteIsFetchedNext_call :
    PushesByte (.call 7#8) (at_ 0x45#9 []) 0x47#8 ∧ (at_ 0x45#9 []).phase = .running ∧
      (next? (exec (.call 7#8) (at_ 0x45#9 []))).map (fun t => t.pc.toNat) = some (at_ 0x45#9 []).decSp.stackAddr ∧
      PushesByte (.call 7#8) (at_ 253#9 []) 0xFF#8 :=
  ⟨.inr ⟨.r7, rfl, by decide, by decide⟩, rfl, by decide, .inr ⟨.r7, rfl, by decide, by decide⟩⟩
/-- A PUSH into an operand byte of the next instruction: cell 0x0B, one past the pc after the PUSH. -/
theorem witness_PushedByteIsFetchedNext_operand :
    (next? (exec (.push 0#8) ((at_ 8#9 []).setReg .sp 0x0C#8))).map (fun t => t.pc.toNat + 1) =
      some ((at_ 8#9 []).setReg .sp 0x0C#8).decSp.stackAddr := by decide
theorem witness_CallPushesTheReturnAddress :
    (at_ 253#9 []).pc.toNat ≤ 253 ∧ (at_ 254#9 []).pc.toNat = 254 := by decide
theorem witness_ConditionalJumpsFollowTheFlag :
    ((at_ 0#9 []).setFl .equal).fl = .equal ∧ ((at_ 0#9 []).setFl .unequal).fl = .unequal ∧
      (at_ 0#9 []).fl ≠ .equal ∧ (at_ 0#9 []).fl ≠ .unequal := by decide
theorem witness_CallThenRetIsARoundTrip :
    (at_ 253#9 []).pc.toNat ≤ 253 ∧
      (next? (exec (.call 1#8) (at_ 253#9 []))).map (fun t => (t.reg .sp, t.byteAt (at_ 253#9 []).decSp.stackAddr)) =
        some (0xF3#8, 0xFF#8) := by decide
theorem witness_BadRegisterByteFaultsFirst :
    (Instr.add 8#8 9#8).regOperands.find? (fun x => decide (7 < x.toNat)) = some 8#8 ∧
      (Instr.add 7#8 9#8).regOperands.find? (fun x => decide (7 < x.toNat)) = some 9#8 ∧
      (Instr.jeq 8#8).regOperands.find? (fun x => decide (7 < x.toNat)) = some 8#8 := by decide
theorem witness_WellFormedInstructionsDoNotFault :
    (Instr.call 7#8).wellFormed = true ∧ (at_ 253#9 []).phase = .running ∧
      ((Instr.call 7#8).mnemonic = .call → (at_ 253#9 []).pc.toNat ≤ 253) := by decide
theorem witness_TheFirstFailingCheckDecidesTheFault :
    firstFault (at_ 0x100#9 []) = some (.memBounds, 256) ∧ firstFault (at_ 0xFF#9 [0xFF#8]) = some (.unknownOpcode, 255) ∧
      firstFault (at_ 0xFF#9 [0xA0#8]) = some (.memBounds, 256) ∧
      firstFault (at_ 0xFE#9 [0xA0#8, 9#8]) = some (.memBounds, 256) ∧
      firstFault (at_ 0xFD#9 [0xA0#8, 8#8, 9#8]) = some (.regBounds, 8) ∧
      firstFault (at_ 0#9 [0xA4#8, 7#8, 8#8]) = some (.regBounds, 8) ∧
      firstFault (at_ 0xFE#9 [0x50#8, 1#8]) = some (.retAddrOverflow, 256) ∧
      firstFault (at_ 0xFD#9 [0x50#8, 1#8]) = none ∧ firstFault (at_ 0xFD#9 [0x82#8, 7#8, 9#8]) = none := by decide
theorem witness_FaultsArePrecise :
    (at_ 0#9 [0xFF#8]).phase = .running ∧ after (at_ 0#9 [0xFF#8]) (fun t => t.phase) = some .faulted := by decide
theorem witness_OnlyCmpWritesAndOnlyJumpsReadTheFlag :
    (Instr.add 0#8 1#8).mnemonic ≠ .cmp ∧ (Instr.add 0#8 1#8).mnemonic ≠ .jeq ∧ (Instr.add 0#8 1#8).mnemonic ≠ .jne ∧
      after (at_ 0#9 [0xA0#8, 0#8, 1#8]) (fun t => t.fl) = some .unset := by decide
theorem witness_OnlyPushAndCallWriteMemory :
    (next? (exec (.push 0#8) (at_ 0#9 []))).isSome = true ∧ (Instr.pop 0#8).mnemonic ≠ .push ∧
      (Instr.pop 0#8).mnemonic ≠ .call ∧ (next? (exec (.pop 0#8) (at_ 0#9 []))).isSome = true := by decide
theorem witness_OutputOnlyGrowsAndIsNeverRead :
    (next? (exec (.prn 7#8) (at_ 0#9 []))).map (fun t => t.out) = some [0xF4#8] ∧
      (next? (exec .ret (at_ 0#9 []))).map (fun t => t.out) = some [] := by decide
theorem witness_StatusRegistersAreNeverRead :
    SameForProgram (at_ 0#9 []) ((at_ 0#9 []).setIr 5#8) ∧
      (next? (exec (.call 1#8) (at_ 0#9 []))).isSome = true ∧
      (next? (exec (.call 1#8) ((at_ 0#9 []).setIr 5#8))).isSome = true :=
  ⟨⟨rfl, rfl, rfl, rfl, rfl⟩, by decide, by decide⟩
theorem witness_OnlyHltAndModByZeroHalt :
    (at_ 0#9 []).phase = .running ∧ (next? (exec .hlt (at_ 0#9 []))).map (fun t => t.phase) = some .halted ∧
      (next? (exec (.mod 0#8 1#8) (at_ 0#9 []))).map (fun t => t.phase) = some .halted := by decide
theorem witness_RunChangesOnlyThePhase : State.reset.phase = .idle := by decide
theorem witness_LoadWritesTheImageFromZero :
    State.reset.phase = .idle ∧ (List.replicate 256 0xFF#8).length ≤ 256 ∧ 256 < (List.replicate 257 0xFF#8).length ∧
      (at_ 0#9 []).phase ≠ .idle :=
  ⟨rfl, by rw [List.length_replicate], by rw [List.length_replicate]; decide, by decide⟩
theorem witness_BootRunsTheHeadOfTheImage :
    (encode .hlt ++ ([] : List Byte)).length ≤ 256 ∧
      (encode (.add 0#8 1#8) ++ List.replicate 253 0#8).length ≤ 256 :=
  ⟨by decide, by rw [List.length_append, List.length_replicate]; decide⟩
theorem witness_PlacedWordRunsNext : decodeTableWord 8 0x01 = some .hlt := by decide
/-- A running engine at the last address with HLT there: it meets the invariant and steps. -/
theorem witness_StepKeepsTheInvariant :
    Inv (at_ 0xFF#9 [0x01#8]) ∧ after (at_ 0xFF#9 [0x01#8]) (fun t => t.phase) = some .halted :=
  ⟨⟨rfl, by decide, by decide, by decide, rfl, by decide⟩, by decide⟩
/-- An idle engine with a byte loaded: it meets the invariant, and a load completes. -/
theorem witness_HostOperationsKeepTheInvariant :
    Inv (State.reset.storeByte 0 0x01#8) ∧
      (next? (hostLoad [0x11#8] (State.reset.storeByte 0 0x01#8))).isSome = true :=
  ⟨⟨rfl, by decide, by decide, by decide, rfl, by decide⟩, by decide⟩
theorem witness_ReachableStatesMeetTheInvariant : Reachable State.reset ∧ Reachable (hostRun State.reset) :=
  ⟨.reset, .run _ .reset⟩

end Sys2Proof.Tests
end

section
/-!
PROOFS, family 10_state.md: who writes the flag and who reads it. Writing is read off the inversion `Answers`. Not
reading it is a commutation: overwriting the flag before an instruction or after it gives the same answer, shown once for
the operand check and then for each instruction.
-/

namespace Sys2Proof.Machine

/-! ### Who writes the flag -/

theorem compareFlag_ne_unset (x y : Byte) : compareFlag x y ≠ .unset := by
  unfold compareFlag
  split <;> simp

/-- An instruction keeps the flag, or it is a CMP and leaves TRUE or FALSE. -/
theorem Answers.fl_cases {i : Instr} {s t : State} (h : Answers i s t) :
    t.fl = s.fl ∨ i.mnemonic = .cmp ∧ t.fl ≠ .unset := by
  cases h with
  | cmp _ ra rb => exact .inr ⟨rfl, compareFlag_ne_unset _ _⟩
  | jeq | jne => exact .inl (by split <;> rfl)
  | _ => exact .inl rfl

theorem exec_fl_of_ne_cmp {i : Instr} {s t : State} (hi : i.mnemonic ≠ .cmp) (h : exec i s = .next t) :
    t.fl = s.fl :=
  (exec_cases s i t h).fl_cases.resolve_right fun hcmp => hi hcmp.1

@[simp] theorem latchOpcode_fl (s : State) : (latchOpcode s).fl = s.fl := by rw [latchOpcode_eq, State.setIr_fl]

@[simp] theorem fetchFault_fl (e : DecodeError) (s : State) : (fetchFault e s).fl = s.fl := by cases e <;> rfl

/-- A step keeps the flag or leaves TRUE or FALSE in it. -/
theorem step_fl_cases {s t : State} (h : step s = .next t) : t.fl = s.fl ∨ t.fl ≠ .unset := by
  rcases step_cases s with ⟨_, hs⟩ | ⟨_, ⟨i, _, _, hs⟩ | ⟨e, _, hs⟩⟩
  · cases hs.symm.trans h
    exact .inl rfl
  · have hfl := (exec_cases _ i t (hs.symm.trans h)).fl_cases
    rw [latchOpcode_fl] at hfl
    exact hfl.imp_right And.right
  · cases hs.symm.trans h
    exact .inl (by simp)

/-! ### Who reads the flag -/

/-- The operand check carries a change `g` of the state from its continuation and its fault to its answer. -/
theorem withReg_mapNext {g : State → State} {s s' : State} (b : Byte) {k k' : Reg → Result}
    (hraise : ∀ info, s'.raise .regBounds info = g (s.raise .regBounds info))
    (hk : ∀ r, k' r = mapNext g (k r)) : withReg b s' k' = mapNext g (withReg b s k) := by
  rcases withReg_cases b s k with ⟨r, rfl, h⟩ | ⟨hgt, h⟩
  · rw [h, withReg_toByte, hk]
  · rw [h, withReg_of_gt b _ k' hgt, hraise, mapNext]

/-- The check of two operands carries a change of the state in the same way. -/
theorem withRegs_mapNext {g : State → State} {s s' : State} (a b : Byte) {k k' : Reg → Reg → Result}
    (hraise : ∀ info, s'.raise .regBounds info = g (s.raise .regBounds info))
    (hk : ∀ r r', k' r r' = mapNext g (k r r')) : withRegs a b s' k' = mapNext g (withRegs a b s k) :=
  withReg_mapNext a hraise fun r => withReg_mapNext b hraise (hk r)

@[simp] theorem State.returnAddr_setFl (s : State) (f : Flag) : (s.setFl f).returnAddr = s.returnAddr := rfl

theorem aluRegs_setFl (op : AluOp) (a b : Byte) (s : State) (f : Flag) :
    aluRegs op a b (s.setFl f) = mapNext (fun t => t.setFl f) (aluRegs op a b s) :=
  withRegs_mapNext a b (fun _ => rfl) fun _ _ => rfl

/-- Only CMP, JEQ and JNE tell a state from the same state with another flag. -/
theorem exec_setFl (i : Instr) (s : State) (f : Flag) (hcmp : i.mnemonic ≠ .cmp) (hjeq : i.mnemonic ≠ .jeq)
    (hjne : i.mnemonic ≠ .jne) : exec i (s.setFl f) = mapNext (fun t => t.setFl f) (exec i s) := by
  have hraise (info : Word9) : (s.setFl f).raise .regBounds info = (s.raise .regBounds info).setFl f := rfl
  cases i with
  | cmp => exact absurd rfl hcmp
  | jeq => exact absurd rfl hjeq
  | jne => exact absurd rfl hjne
  | hlt => rfl
  | ret => rw [execRet_eq, execRet_eq]; rfl
  | add a b | mul a b | and a b | or a b | xor a b | shl a b | shr a b => exact aluRegs_setFl _ a b s f
  | mod a b =>
    refine withRegs_mapNext a b hraise fun _ rb => ?_
    by_cases h : s.reg rb = 0#8
    · simp only [State.reg_setFl, h, if_true]
      rfl
    · simp only [State.reg_setFl, h, if_false]
      rfl
  | ldi a | prn a | jmp a | not a => exact withReg_mapNext a hraise fun _ => rfl
  | push a => exact withReg_mapNext a hraise fun _ => by rw [memWrite_stack, memWrite_stack]; rfl
  | pop a => exact withReg_mapNext a hraise fun _ => by rw [memRead_stack, memRead_stack]; rfl
  | call a =>
    refine withReg_mapNext a hraise fun _ => ?_
    by_cases h : Config.addrMax < s.returnAddr
    · simp only [State.returnAddr_setFl, h, if_true]
      rfl
    · simp only [State.returnAddr_setFl, h, if_false, memWrite_stack]
      rfl

/-- Settles O37: who writes the flag from the inversions of `exec` and `step`, who reads it from `exec_setFl`. -/
theorem onlyCmpWritesAndOnlyJumpsReadTheFlag : Obligations.OnlyCmpWritesAndOnlyJumpsReadTheFlag := by
  refine ⟨fun _ _ _ hi h => exec_fl_of_ne_cmp hi h, fun s ra rb => ?_, fun s t h ht => ?_, exec_setFl,
    fun s ra rb f => ?_, fun _ => rfl⟩
  · exact ⟨_, execCmp_reg s ra rb, compareFlag_ne_unset _ _⟩
  · exact (step_fl_cases h).elim (fun heq => heq ▸ ht) (absurd ht)
  · rw [execCmp_reg, execCmp_reg]
    rfl

end Sys2Proof.Machine
end

section
/-!
PROOFS, family 40_engine_cycle.md: the host's run, given in IDLE.
-/

namespace Sys2Proof.Machine

@[simp] theorem hostRun_of_idle {s : State} (h : s.phase = .idle) : hostRun s = { s with phase := .running } := by
  rw [hostRun, h]

/-- Settles O43, by the IDLE arm of the host's run. -/
theorem runChangesOnlyThePhase : Obligations.RunChangesOnlyThePhase := fun _ h => hostRun_of_idle h

end Sys2Proof.Machine
end

section
/-!
PROOFS, family 41_alu.md: ADD, MUL, AND, OR, XOR and CMP. What an ALU instruction leaves alone is one frame lemma for every
operation; what it computes is the ALU's law for that operation; CMP's flag is the law of `compareFlag`.
-/

namespace Sys2Proof.Machine

/-! ### The ALU on bits (41_alu.md R114 to R116) -/

theorem alu_and_getLsbD (x y : Byte) (n : Nat) : (alu .and x y).getLsbD n = (x.getLsbD n && y.getLsbD n) :=
  BitVec.getLsbD_and

theorem alu_or_getLsbD (x y : Byte) (n : Nat) : (alu .or x y).getLsbD n = (x.getLsbD n || y.getLsbD n) :=
  BitVec.getLsbD_or

theorem alu_xor_getLsbD (x y : Byte) (n : Nat) : (alu .xor x y).getLsbD n = (x.getLsbD n ^^ y.getLsbD n) :=
  BitVec.getLsbD_xor

/-! ### Frames -/

theorem sameMemory_of_mem_eq {s t : State} (h : t.mem = s.mem) : SameMemory s t :=
  fun n => congrArg (Memory.read · n) h

theorem State.reg_aluTo_same (s : State) (op : AluOp) (ra rb : Reg) :
    (s.aluTo op ra rb).reg ra = alu op (s.reg ra) (s.reg rb) := by
  rw [State.reg_aluTo, if_pos rfl]

/-- Whatever the operation, an ALU result changes its own register and the pc, and nothing else (41_alu.md R110). -/
theorem State.aluTo_onlyRegAdvance3 (s : State) (op : AluOp) (ra rb : Reg) :
    OnlyRegAdvance3 ra s (s.aluTo op ra rb) := by
  have hregs : SameRegsBut [ra] s (s.aluTo op ra rb) := fun r hr => by
    rw [State.reg_aluTo, if_neg fun h => hr (List.mem_singleton.mpr h)]
  exact ⟨hregs, rfl, rfl, sameMemory_of_mem_eq rfl, rfl, rfl, rfl, rfl, rfl, rfl⟩

/-! ### The flag of a comparison (41_alu.md R113) -/

theorem compareFlag_eq_equal_iff (x y : Byte) : compareFlag x y = .equal ↔ x = y := by
  unfold compareFlag
  split <;> simp [*]

theorem compareFlag_eq_unequal_iff (x y : Byte) : compareFlag x y = .unequal ↔ x ≠ y := by
  unfold compareFlag
  split <;> simp [*]

/-! ### The obligations -/

/-- Settles O13, by the ALU's law for each operation and the frame of an ALU result. -/
theorem addMulWriteTheResultModulo256 : Obligations.AddMulWriteTheResultModulo256 := by
  refine fun s ra rb => ⟨⟨_, execAdd_reg s ra rb, ?_, s.aluTo_onlyRegAdvance3 _ ra rb⟩,
    ⟨_, execMul_reg s ra rb, ?_, s.aluTo_onlyRegAdvance3 _ ra rb⟩⟩
  · rw [State.reg_aluTo_same, alu_add_toNat]
  · rw [State.reg_aluTo_same, alu_mul_toNat]

/-- Settles O14, by the ALU's law on bits for each operation and the frame of an ALU result. -/
theorem logicActsBitByBit : Obligations.LogicActsBitByBit := by
  refine fun s ra rb => ⟨⟨_, execAnd_reg s ra rb, fun n _ => ?_, s.aluTo_onlyRegAdvance3 _ ra rb⟩,
    ⟨_, execOr_reg s ra rb, fun n _ => ?_, s.aluTo_onlyRegAdvance3 _ ra rb⟩,
    ⟨_, execXor_reg s ra rb, fun n _ => ?_, s.aluTo_onlyRegAdvance3 _ ra rb⟩⟩
  · rw [State.reg_aluTo_same, alu_and_getLsbD]
  · rw [State.reg_aluTo_same, alu_or_getLsbD]
  · rw [State.reg_aluTo_same, alu_xor_getLsbD]

/-- Settles O16, by the two laws of `compareFlag`; CMP's next state differs from the old one in flag and pc only. -/
theorem cmpWritesOnlyTheFlag : Obligations.CmpWritesOnlyTheFlag := fun s ra rb =>
  ⟨_, execCmp_reg s ra rb, compareFlag_eq_equal_iff _ _, compareFlag_eq_unequal_iff _ _, rfl, fun _ _ => rfl,
    sameMemory_of_mem_eq rfl, rfl, rfl, rfl, rfl, rfl, rfl⟩

end Sys2Proof.Machine
end

section
/-!
PROOFS, family 42_system_data.md: HLT, LDI and PRN. Each next state is built from the shared operations, so each frame is a
lemma about the operations: halting one past the opcode (whatever the cause), and writing one register and moving on by 3
(whatever the value).
-/

namespace Sys2Proof.Machine

/-- Halting one past the opcode keeps registers, flag, memory, output and fault record (10_state.md R34). -/
theorem State.halt_advance_haltsOnePast (s : State) (c : HaltCause) : HaltsOnePast c s ((s.advance 1).halt c) :=
  ⟨rfl, rfl, rfl, fun _ _ => rfl, rfl, sameMemory_of_mem_eq rfl, rfl, rfl, rfl, rfl⟩

theorem State.reg_setReg_same (s : State) (r : Reg) (v : Byte) : (s.setReg r v).reg r = v := by
  rw [State.reg_setReg, if_pos rfl]

theorem State.reg_setReg_other (s : State) {r r' : Reg} (v : Byte) (h : r' ≠ r) :
    (s.setReg r v).reg r' = s.reg r' := by
  rw [State.reg_setReg, if_neg h]

theorem State.setReg_advance_onlyRegAdvance3 (s : State) (r : Reg) (v : Byte) :
    OnlyRegAdvance3 r s ((s.setReg r v).advance 3) := by
  have hregs : SameRegsBut [r] s ((s.setReg r v).advance 3) := fun r' hr' => by
    rw [State.reg_advance, State.reg_setReg_other s v (List.ne_of_not_mem_cons hr')]
  exact ⟨hregs, rfl, rfl, sameMemory_of_mem_eq rfl, rfl, rfl, rfl, rfl, rfl, rfl⟩

/-! ### The obligations -/

/-- Settles O20, by the frame of a halt one past the opcode. -/
theorem hltHaltsOnePast : Obligations.HltHaltsOnePast := fun s =>
  ⟨_, execHlt_eq s, s.halt_advance_haltsOnePast .hlt⟩

/-- Settles O21: the register written reads as the immediate, and the frame of a register write says the rest. -/
theorem ldiLoadsTheImmediate : Obligations.LdiLoadsTheImmediate := fun s ra imm =>
  ⟨_, execLdi_reg s ra imm, s.reg_setReg_same ra imm, s.setReg_advance_onlyRegAdvance3 ra imm⟩

/-- Settles O22: PRN's next state differs from the old one in output and pc only. -/
theorem prnAppendsOneValue : Obligations.PrnAppendsOneValue := fun s ra =>
  ⟨_, execPrn_reg s ra, rfl, rfl, fun _ _ => rfl, rfl, sameMemory_of_mem_eq rfl, rfl, rfl, rfl, rfl, rfl⟩

end Sys2Proof.Machine
end

section
/-!
PROOFS, family 44_control.md: RET, JMP, JEQ and JNE. Writing the pc is a frame of its own, so a jump and a fall-through both
change only the pc; the two conditional jumps are one lemma over the condition that takes them.
-/

namespace Sys2Proof.Machine

/-! ### Frames -/

/-- Writing the pc changes nothing else, whatever the target (44_control.md R152). -/
theorem State.setPc_onlyPc (s : State) (target : Word9) : OnlyPc s (s.setPc target) :=
  ⟨fun _ _ => rfl, rfl, sameMemory_of_mem_eq rfl, rfl, rfl, rfl, rfl, rfl, rfl⟩

theorem State.jumpTo_pc_toNat (s : State) (target : Byte) : (s.jumpTo target).pc.toNat = target.toNat :=
  zext9_toNat target

theorem State.reg_incSp_sp_toNat (s : State) : (s.incSp.reg .sp).toNat = ((s.reg .sp).toNat + 1) % 256 := by
  rw [State.reg_incSp, if_pos rfl, BitVec.toNat_add]
  rfl

theorem State.incSp_sameRegsBut (s : State) : SameRegsBut [.sp] s s.incSp := fun r hr => by
  rw [State.reg_incSp, if_neg (List.ne_of_not_mem_cons hr)]

/-! ### The flag test (44_control.md R156) -/

theorem Flag.takesJeq_iff (f : Flag) : f.takesJeq = true ↔ f = .equal := by
  cases f <;> simp [Flag.takesJeq]

theorem Flag.takesJne_iff (f : Flag) : f.takesJne = true ↔ f = .unequal := by
  cases f <;> simp [Flag.takesJne]

/-- A jump taken exactly when `p` holds: the target if `p`, else the next instruction, and only the pc changes. -/
theorem conditionalJump_spec (s : State) (target : Byte) {taken : Bool} {p : Prop} (hp : taken = true ↔ p) {t : State}
    (ht : t = if taken then s.jumpTo target else s.advance 2) :
    (p → t.pc.toNat = target.toNat) ∧ (¬ p → t.pc = s.pc + 2#9) ∧ OnlyPc s t := by
  subst ht
  split
  case isTrue h => exact ⟨fun _ => s.jumpTo_pc_toNat target, fun hn => absurd (hp.mp h) hn, s.setPc_onlyPc _⟩
  case isFalse h => exact ⟨fun hpos => absurd (hp.mpr hpos) h, fun _ => rfl, s.setPc_onlyPc _⟩

/-! ### The obligations -/

/-- Settles O29: the pc by zero extension, SP by the law of its increment; both leave memory, flag and engine alone. -/
theorem retJumpsToTheTopOfStack : Obligations.RetJumpsToTheTopOfStack := fun s =>
  ⟨_, execRet_eq s, s.incSp.jumpTo_pc_toNat _, s.reg_incSp_sp_toNat, s.incSp_sameRegsBut, sameMemory_of_mem_eq rfl,
    rfl, rfl, rfl, rfl, rfl, rfl, rfl⟩

/-- Settles O30, by zero extension of the target and the frame of a write to the pc. -/
theorem jmpWritesOnlyThePc : Obligations.JmpWritesOnlyThePc := fun s ra =>
  ⟨_, execJmp_reg s ra, s.jumpTo_pc_toNat _, s.setPc_onlyPc _⟩

/-- Settles O31: each flag test holds of exactly one flag value, and a conditional jump follows its test. -/
theorem conditionalJumpsFollowTheFlag : Obligations.ConditionalJumpsFollowTheFlag := fun s ra =>
  ⟨⟨_, execJeq_reg s ra, conditionalJump_spec s (s.reg ra) s.fl.takesJeq_iff rfl⟩,
    ⟨_, execJne_reg s ra, conditionalJump_spec s (s.reg ra) s.fl.takesJne_iff rfl⟩⟩

end Sys2Proof.Machine
end

section
/-!
PROOFS, family 30_encoding.md: decoding, encoding and assembly. The bytes of an instruction are a function of its mnemonic's
format and two operand bytes (`Format.operands`), and `takeOperands` reads exactly those bytes back.
-/

namespace Sys2Proof

/-- The operand bytes a format lays after the opcode; a byte the format lacks is left out. -/
def Format.operands : Format → Byte → Byte → List Byte
  | .f0, _, _ => []
  | .f1, a, _ => [a]
  | .f2r, a, b | .f2i, a, b | .f2p, a, b => [a, b]

theorem Mnemonic.operandBytes_build (m : Mnemonic) (a b : Byte) :
    (m.build a b).operandBytes = m.format.operands a b := by
  cases m <;> rfl

theorem Mnemonic.encode_build (m : Mnemonic) (a b : Byte) :
    encode (m.build a b) = m.opcode :: m.format.operands a b := by
  rw [encode, mnemonic_build, operandBytes_build]

/-- The encoding is the first bytes of opcode, `a`, `b`, as many as the format takes. -/
theorem Mnemonic.encode_build_eq_take (m : Mnemonic) (a b : Byte) :
    encode (m.build a b) = [m.opcode, a, b].take m.format.length := by
  cases m <;> rfl

theorem Format.length_le (f : Format) : f.length ≤ Config.maxLength := by cases f <;> decide

theorem encode_length_le (i : Instr) : (encode i).length ≤ Config.maxLength :=
  encode_length i ▸ i.mnemonic.format.length_le

/-- Every instruction is its mnemonic with two operand bytes. -/
theorem Instr.exists_build (i : Instr) : ∃ a b, i = i.mnemonic.build a b := by
  cases i with
  | hlt | ret => exact ⟨0#8, 0#8, rfl⟩
  | prn a | push a | pop a | call a | jmp a | jeq a | jne a => exact ⟨a, 0#8, rfl⟩
  | ldi a b | not a b | add a b | mul a b | cmp a b | and a b | or a b | xor a b | shl a b | shr a b | mod a b =>
    exact ⟨a, b, rfl⟩

/-! ### Reading operand bytes -/

/-- Operand bytes lie where `takeOperands` reads them. -/
theorem eq_operands_of_takeOperands {f : Format} {l rest : List Byte} {a b : Byte}
    (h : takeOperands f l = .ok ((a, b), rest)) : l = f.operands a b ++ rest := by
  unfold takeOperands at h
  split at h <;> cases h <;> rfl

/-- What is read after a mnemonic's opcode builds the instruction whose operand bytes were laid there. -/
theorem takeOperands_operands (m : Mnemonic) (a b : Byte) (rest : List Byte) :
    (takeOperands m.format (m.format.operands a b ++ rest)).map (fun p => (m.build p.1.1 p.1.2, p.2)) =
      .ok (m.build a b, rest) := by
  cases m <;> rfl

/-- Too few bytes for the format: the first missing one is the one after the last that is there. -/
theorem takeOperands_of_short {f : Format} {l : List Byte} (h : l.length + 1 < f.length) :
    takeOperands f l = .error (.missingByte (l.length + 1)) := by
  match f, l with
  | .f0, _ => exact absurd h (by simp [Format.length])
  | .f1, _ :: _ => exact absurd h (by simp [Format.length])
  | .f2r, _ :: _ :: _ | .f2i, _ :: _ :: _ | .f2p, _ :: _ :: _ => exact absurd h (by simp [Format.length])
  | .f1, [] | .f2r, [] | .f2i, [] | .f2p, [] => rfl
  | .f2r, [_] | .f2i, [_] | .f2p, [_] => rfl

/-! ### Decoding -/

theorem decode_of_unknown {op : Byte} (rest : List Byte) (h : decodeOpcode op = none) :
    decode (op :: rest) = .error (.unknownOpcode op) := by
  rw [decode, h]

/-- After a known opcode, decoding is reading the operand bytes of its format. -/
theorem decode_opcode_cons (m : Mnemonic) (rest : List Byte) :
    decode (m.opcode :: rest) = (takeOperands m.format rest).map (fun p => (m.build p.1.1 p.1.2, p.2)) := by
  rw [decode, decodeOpcode_opcode]
  cases h : takeOperands m.format rest <;> simp only [h] <;> rfl

theorem decode_encode_append (i : Instr) (rest : List Byte) : decode (encode i ++ rest) = .ok (i, rest) := by
  obtain ⟨a, b, hi⟩ := i.exists_build
  rw [hi, Mnemonic.encode_build, List.cons_append, decode_opcode_cons, takeOperands_operands]

theorem eq_encode_of_decode {bytes rest : List Byte} {i : Instr} (h : decode bytes = .ok (i, rest)) :
    bytes = encode i ++ rest := by
  unfold decode at h
  split at h
  case h_1 => cases h
  case h_2 op tail =>
    split at h
    case h_1 => cases h
    case h_2 m hop =>
      split at h
      case h_1 => cases h
      case h_2 a b rest' htake =>
        cases h
        rw [Mnemonic.encode_build, (decodeOpcode_eq_some op m).mp hop, eq_operands_of_takeOperands htake,
          List.cons_append]

/-- Settles O1: what is read from an encoding is the instruction, and what is read as an instruction is its encoding. -/
theorem decodeAcceptsExactlyTheEncodings : Obligations.DecodeAcceptsExactlyTheEncodings := by
  intro bytes i rest
  constructor
  · exact eq_encode_of_decode
  · rintro rfl
    exact decode_encode_append i rest

/-- Settles O2, by decoding the words. -/
theorem sampleWordsDecode : Obligations.SampleWordsDecode := by
  unfold Obligations.SampleWordsDecode
  decide

/-! ### The known opcodes (30_encoding.md R78) -/

theorem Mnemonic.opcode_mem_knownOpcodes (m : Mnemonic) : m.opcode ∈ Machine.knownOpcodes := by
  cases m <;> decide

theorem isSome_decodeOpcode_iff (op : Byte) : (decodeOpcode op).isSome = true ↔ op ∈ Machine.knownOpcodes := by
  have hknown : ∀ op ∈ Machine.knownOpcodes, (decodeOpcode op).isSome = true := by decide
  refine ⟨fun h => ?_, hknown op⟩
  obtain ⟨m, hm⟩ := Option.isSome_iff_exists.mp h
  exact (decodeOpcode_eq_some op m).mp hm ▸ m.opcode_mem_knownOpcodes

theorem decodeOpcode_eq_none_iff (op : Byte) : decodeOpcode op = none ↔ op ∉ Machine.knownOpcodes := by
  rw [← isSome_decodeOpcode_iff, Option.not_isSome_iff_eq_none]

/-- Settles O3: the opcode map is defined exactly on the list. -/
theorem exactlyTwentyOpcodesAreKnown : Obligations.ExactlyTwentyOpcodesAreKnown :=
  ⟨rfl, isSome_decodeOpcode_iff⟩

/-! ### Assembly -/

open Machine

/-- The register operands are the operand bytes the format declares register indices. -/
theorem Mnemonic.regOperands_build (m : Mnemonic) (a b : Byte) :
    (m.build a b).regOperands =
      (if Format.checksA m.format then [a] else []) ++ (if Format.checksB m.format then [b] else []) := by
  cases m <;> rfl

/-- Settles O4, form by form: the operand bytes of the built instruction are registers' bytes, which name those registers. -/
theorem disassemblyInvertsAssembly : Obligations.DisassemblyInvertsAssembly := by
  rintro ⟨m, ops⟩ i h
  unfold assemble at h
  split at h
  case h_6 => cases h
  all_goals
    rename_i hf ho
    dsimp only at hf ho
    cases h
    simp [disassemble, Instr.wellFormed, Mnemonic.regOperands_build, Mnemonic.operandBytes_build, hf, ho,
      Format.operands, Format.checksA, Format.checksB, isRegIndex_toByte]

end Sys2Proof
end

section
/-!
PROOFS, family 40_engine_cycle.md: what a running engine's step does, by what lies at the pc. `RunningStep` says it once, in
four cases read off the cells themselves (no byte at the pc; no opcode there; an operand byte past the top; an instruction
that fits), and every later proof about `step` goes through it.
-/

namespace Sys2Proof.Machine

/-- The cells from `addr` upward hold the bytes. -/
def HoldsBytes (s : State) (addr : Nat) (bytes : List Byte) : Prop :=
  ∀ k, k < bytes.length → bytes[k]? = some (s.byteAt (addr + k))

/-! ### The fetch window on an instruction -/

/-- When the opcode fetch succeeds the window is the byte at the pc and those of the next two cells that exist. -/
theorem fetchWindow_eq_cons (s : State) (h : s.pc.toNat ≤ 255) :
    ∃ rest, fetchWindow s = s.byteAt s.pc.toNat :: rest ∧ rest.length = min 2 (255 - s.pc.toNat) := by
  rcases (by omega : s.pc.toNat = 255 ∨ s.pc.toNat = 254 ∨ s.pc.toNat ≤ 253) with h1 | h2 | h3
  · exact ⟨_, by rw [fetchWindow_one s h1, h1]; rfl, by rw [h1]; rfl⟩
  · exact ⟨_, by rw [fetchWindow_two s h2, h2]; rfl, by rw [h2]; rfl⟩
  · exact ⟨_, fetchWindow_three s h3, by simp only [List.length_cons, List.length_nil]; omega⟩

/-- Bytes that fit below the top and in an instruction's length are the window's first bytes. -/
theorem HoldsBytes.isPrefix_fetchWindow {s : State} {bytes : List Byte} (h : HoldsBytes s s.pc.toNat bytes)
    (hlen : bytes.length ≤ Config.maxLength) (hfit : s.pc.toNat + bytes.length ≤ 256) : bytes <+: fetchWindow s := by
  rw [List.prefix_iff_getElem?]
  intro k hk
  rw [fetchWindow_getElem? s k (by omega) (by omega), ← List.getElem?_eq_getElem hk, h k hk]
  rfl

theorem HoldsBytes.decode_fetchWindow {s : State} {i : Instr} (h : HoldsBytes s s.pc.toNat (encode i))
    (hfit : s.pc.toNat + (encode i).length ≤ 256) : ∃ rest, decode (fetchWindow s) = .ok (i, rest) := by
  obtain ⟨rest, hrest⟩ := h.isPrefix_fetchWindow (encode_length_le i) hfit
  exact ⟨rest, hrest ▸ decode_encode_append i rest⟩

/-- The three cells from `addr` hold the encoding of the instruction built from them, as far as its format goes. -/
theorem holdsBytes_build {s : State} {addr : Nat} {m : Mnemonic} (hop : s.byteAt addr = m.opcode) :
    HoldsBytes s addr (encode (m.build (s.byteAt (addr + 1)) (s.byteAt (addr + 2)))) := by
  intro k hk
  rw [Mnemonic.encode_build_eq_take, List.length_take] at hk
  rw [Mnemonic.encode_build_eq_take, List.getElem?_take_of_lt (by omega), ← hop]
  match k with
  | 0 | 1 | 2 => rfl
  | k + 3 => exact absurd hk (by simp only [List.length_cons, List.length_nil]; omega)

/-! ### The four cases of a step -/

theorem step_of_decode {s : State} {i : Instr} {rest : List Byte} (hrun : s.phase = .running)
    (h : decode (fetchWindow s) = .ok (i, rest)) : step s = exec i (s.setIr i.mnemonic.opcode) := by
  have hpc : s.pc.toNat ≤ 255 := by
    by_contra hgt
    rw [fetchWindow_none s (by omega)] at h
    cases h
  obtain ⟨tail, hw, -⟩ := fetchWindow_eq_cons s hpc
  obtain ⟨hop, -⟩ := List.cons.inj (hw.symm.trans (eq_encode_of_decode h))
  rw [step_running s hrun, runStep, h, latchOpcode_of_le s hpc, ← hop]
  rfl

theorem step_of_decode_error {s : State} {e : DecodeError} (hrun : s.phase = .running)
    (h : decode (fetchWindow s) = .error e) : step s = .next (fetchFault e (latchOpcode s)) := by
  rw [step_running s hrun, runStep, h]

theorem step_of_holdsBytes {s : State} {i : Instr} (hrun : s.phase = .running)
    (hfit : s.pc.toNat + (encode i).length ≤ 256) (h : HoldsBytes s s.pc.toNat (encode i)) :
    step s = exec i (s.setIr i.mnemonic.opcode) := by
  obtain ⟨rest, hd⟩ := h.decode_fetchWindow hfit
  exact step_of_decode hrun hd

/-- The opcode fetch fails: MEM_BOUNDS with the pc, `ir` kept (40_engine_cycle.md R91). -/
theorem step_of_pc_gt {s : State} (hrun : s.phase = .running) (hpc : 255 < s.pc.toNat) :
    step s = .next (s.raiseMemBounds s.pc.toNat) := by
  rw [step_of_decode_error hrun (congrArg decode (fetchWindow_none s hpc)), latchOpcode_of_gt s hpc]
  rfl

/-- The opcode byte is unknown (40_engine_cycle.md R92). -/
theorem step_of_unknownOpcode {s : State} (hrun : s.phase = .running) (hpc : s.pc.toNat ≤ 255)
    (hop : decodeOpcode (s.byteAt s.pc.toNat) = none) :
    step s = .next ((s.setIr (s.byteAt s.pc.toNat)).raise .unknownOpcode (zext9 (s.byteAt s.pc.toNat))) := by
  obtain ⟨rest, hw, -⟩ := fetchWindow_eq_cons s hpc
  rw [step_of_decode_error hrun ((congrArg decode hw).trans (decode_of_unknown rest hop)), latchOpcode_of_le s hpc]
  rfl

/-- An operand byte lies past the top: whichever it is, its address is 256 (40_engine_cycle.md R93). -/
theorem step_of_operand_past_top {s : State} {m : Mnemonic} (hrun : s.phase = .running) (hpc : s.pc.toNat ≤ 255)
    (hop : s.byteAt s.pc.toNat = m.opcode) (hlen : 256 < s.pc.toNat + m.format.length) :
    step s = .next ((s.setIr m.opcode).raiseMemBounds 256) := by
  obtain ⟨rest, hw, hrest⟩ := fetchWindow_eq_cons s hpc
  have hmax : m.format.length ≤ 3 := m.format.length_le
  have hd : decode (fetchWindow s) = .error (.missingByte (rest.length + 1)) := by
    rw [hw, hop, decode_opcode_cons, takeOperands_of_short (by omega)]
    rfl
  have haddr : s.pc.toNat + (rest.length + 1) = 256 := by omega
  rw [step_of_decode_error hrun hd, latchOpcode_of_le s hpc, ← hop, fetchFault, State.setIr_pc, haddr]
  rfl

/-- What a running engine's step does, by what lies at the pc. -/
inductive RunningStep (s : State) : Prop where
  /-- there is no byte at the pc -/
  | pastTop (hpc : 255 < s.pc.toNat) (hstep : step s = .next (s.raiseMemBounds s.pc.toNat))
  /-- the byte at the pc is no opcode -/
  | unknownOpcode (hpc : s.pc.toNat ≤ 255) (hop : decodeOpcode (s.byteAt s.pc.toNat) = none)
      (hstep : step s = .next ((s.setIr (s.byteAt s.pc.toNat)).raise .unknownOpcode (zext9 (s.byteAt s.pc.toNat))))
  /-- an operand byte of the instruction lies past the top -/
  | operandPastTop (m : Mnemonic) (hpc : s.pc.toNat ≤ 255) (hop : s.byteAt s.pc.toNat = m.opcode)
      (hlen : 256 < s.pc.toNat + m.format.length) (hstep : step s = .next ((s.setIr m.opcode).raiseMemBounds 256))
  /-- the instruction fits: it is executed -/
  | executes (m : Mnemonic) (hpc : s.pc.toNat ≤ 255) (hop : s.byteAt s.pc.toNat = m.opcode)
      (hfit : s.pc.toNat + m.format.length ≤ 256)
      (hstep : step s =
        exec (m.build (s.byteAt (s.pc.toNat + 1)) (s.byteAt (s.pc.toNat + 2))) (s.setIr m.opcode))

theorem runningStep {s : State} (hrun : s.phase = .running) : RunningStep s := by
  rcases Nat.lt_or_ge 255 s.pc.toNat with hpc | hpc
  · exact .pastTop hpc (step_of_pc_gt hrun hpc)
  cases hop : decodeOpcode (s.byteAt s.pc.toNat) with
  | none => exact .unknownOpcode hpc hop (step_of_unknownOpcode hrun hpc hop)
  | some m =>
    have hop := (decodeOpcode_eq_some _ m).mp hop
    rcases Nat.lt_or_ge 256 (s.pc.toNat + m.format.length) with hlen | hfit
    · exact .operandPastTop m hpc hop hlen (step_of_operand_past_top hrun hpc hop hlen)
    · refine .executes m hpc hop hfit ?_
      have hstep := step_of_holdsBytes hrun (by rw [encode_length, Instr.length, Mnemonic.mnemonic_build]; exact hfit)
        (holdsBytes_build hop)
      rwa [Mnemonic.mnemonic_build] at hstep

/-! ### The obligations -/

/-- Settles O5: the first byte of what decodes is the opcode that the instruction register takes. -/
theorem stepRunsTheDecodedInstruction : Obligations.StepRunsTheDecodedInstruction :=
  fun _ _ _ hrun h => step_of_decode hrun h

/-- Settles O6: the bytes held at the pc are the first of the fetch window, and decode to the instruction. -/
theorem stepRunsTheBytesAtThePc : Obligations.StepRunsTheBytesAtThePc :=
  fun _ _ hrun hfit h => step_of_holdsBytes hrun hfit h

/-- Settles O7: an unknown byte at the pc, and the empty memory's 0x00 as one such byte. -/
theorem unknownOpcodeRecordsTheByte : Obligations.UnknownOpcodeRecordsTheByte := by
  have hunknown : ∀ s : State, s.phase = .running → s.pc.toNat ≤ 255 → s.byteAt s.pc.toNat ∉ knownOpcodes →
      step s = .next ((s.setIr (s.byteAt s.pc.toNat)).raise .unknownOpcode (zext9 (s.byteAt s.pc.toNat))) :=
    fun s hrun hpc hop => step_of_unknownOpcode hrun hpc ((decodeOpcode_eq_none_iff _).mpr hop)
  refine ⟨fun s hrun hpc hop => ⟨_, hunknown s hrun hpc hop, rfl, rfl⟩, ?_⟩
  exact ⟨_, hunknown (hostRun State.reset) rfl (by decide) (by decide), rfl⟩

/-- Settles O8: each of the three failing fetches is one of the step's cases. -/
theorem fetchPastTheTopFaults : Obligations.FetchPastTheTopFaults := by
  refine fun s hrun => ⟨fun hpc => ?_, fun m hm => ?_⟩
  · exact ⟨_, hpc ▸ step_of_pc_gt hrun (by omega), rfl⟩
  · have hop := (decodeOpcode_eq_some _ m).mp hm
    exact ⟨fun hpc hlen => ⟨_, step_of_operand_past_top hrun hpc.le hop (by omega), rfl⟩,
      fun hpc hlen => ⟨_, step_of_operand_past_top hrun (by omega) hop (by omega), rfl⟩⟩

/-- Settles O9, by the step's first case. -/
theorem stepOutsideRunningChangesNothing : Obligations.StepOutsideRunningChangesNothing := step_not_running

/-- Settles O10, by induction on the number of steps: each answers the state it was given. -/
theorem endedRunsStayAsTheyAre : Obligations.EndedRunsStayAsTheyAre := by
  intro n s hend
  have hphase : s.phase ≠ .running := by rcases hend with h | h <;> simp [h]
  induction n with
  | zero => rfl
  | succ n ih => rw [core_run_succ n s s (step_not_running s hphase), ih]

/-- Settles O11: outside RUNNING the same state; in RUNNING every instruction and every fetch fault is a next state. -/
theorem everyStepAnswersANextState : Obligations.EveryStepAnswersANextState := by
  intro s
  rcases step_cases s with ⟨_, hs⟩ | ⟨_, ⟨i, _, _, hs⟩ | ⟨e, _, hs⟩⟩
  · exact ⟨s, hs⟩
  · obtain ⟨t, ht, -⟩ := exec_answers (latchOpcode s) i
    exact ⟨t, hs.trans ht⟩
  · exact ⟨_, hs⟩

end Sys2Proof.Machine
end

section
/-!
PROOFS, family 60_exceptions.md: what an instruction does to the engine's control state and status registers, said once
(`EngineEffect`): nothing, a halt, or one of two faults. The order and the precision of faults follow from it and from the
four cases of a step.
-/

namespace Sys2Proof.Machine

/-- The instruction that halts the engine in this state, with the cause it records (10_state.md R34). -/
def HaltsWith (i : Instr) (s : State) (c : HaltCause) : Prop :=
  i = .hlt ∧ c = .hlt ∨ ∃ ra rb : Reg, i = .mod ra.toByte rb.toByte ∧ s.reg rb = 0#8 ∧ c = .modZero

/-- What an instruction does to phase, `ir`, halt cause and fault record. -/
inductive EngineEffect (i : Instr) (s t : State) : Prop where
  | keeps (h : SameEngine s t)
  | halts (c : HaltCause) (hi : HaltsWith i s c) (hphase : t.phase = .halted) (hcause : t.haltCause = c)
      (hrecord : SameFaultRecord s t)
  | badReg (b : Byte) (hb : i.regOperands.find? (fun x => decide (7 < x.toNat)) = some b)
      (ht : t = s.raise .regBounds (zext9 b))
  | retAddrOverflow (hi : i.mnemonic = .call) (hpc : Config.addrMax < s.returnAddr)
      (ht : t = s.raise .retAddrOverflow (BitVec.ofNat 9 s.returnAddr))

theorem Answers.engineEffect {i : Instr} {s t : State} (h : Answers i s t) : EngineEffect i s t := by
  cases h with
  | badReg _ _ b hb => exact .badReg b hb rfl
  | callOverflow _ ra hpc => exact .retAddrOverflow rfl hpc rfl
  | hlt => exact .halts .hlt (.inl ⟨rfl, rfl⟩) rfl rfl ⟨rfl, rfl, rfl⟩
  | modZero _ ra rb hz => exact .halts .modZero (.inr ⟨ra, rb, rfl, hz, rfl⟩) rfl rfl ⟨rfl, rfl, rfl⟩
  | jeq | jne => exact .keeps (by split <;> exact ⟨rfl, rfl, rfl, rfl, rfl⟩)
  | _ => exact .keeps ⟨rfl, rfl, rfl, rfl, rfl⟩

theorem exec_engineEffect {i : Instr} {s t : State} (h : exec i s = .next t) : EngineEffect i s t :=
  (exec_cases s i t h).engineEffect

/-- No instruction writes `ir`. -/
theorem EngineEffect.ir_eq {i : Instr} {s t : State} (h : EngineEffect i s t) : t.ir = s.ir := by
  cases h with
  | keeps h => obtain ⟨-, -, hir, -⟩ := h; exact hir
  | halts _ _ _ _ h => obtain ⟨hir, -⟩ := h; exact hir
  | badReg _ _ ht | retAddrOverflow _ _ ht => exact ht ▸ rfl

/-! ### The operand check -/

theorem find?_regOperands_eq_none (i : Instr) :
    i.regOperands.find? (fun x => decide (7 < x.toNat)) = none ↔ i.wellFormed = true := by
  simp [Instr.wellFormed, isRegIndex]

/-- An instruction with a bad register byte raises REG_BOUNDS with it; every other answer needs all of them good. -/
theorem Answers.eq_of_badReg {i : Instr} {s t : State} {b : Byte} (h : Answers i s t)
    (hb : i.regOperands.find? (fun x => decide (7 < x.toNat)) = some b) : t = s.raise .regBounds (zext9 b) := by
  cases h with
  | badReg _ _ b' hb' => rw [Option.some.inj (hb.symm.trans hb')]
  | _ => simp [Instr.regOperands, toByte_le] at hb

theorem exec_of_badReg (s : State) {i : Instr} {b : Byte}
    (hb : i.regOperands.find? (fun x => decide (7 < x.toNat)) = some b) :
    exec i s = .next (s.raise .regBounds (zext9 b)) := by
  obtain ⟨t, ht, hans⟩ := exec_answers s i
  rw [ht, hans.eq_of_badReg hb]

/-- Settles O33: `exec_of_badReg`, whose next state is the fault entry. -/
theorem badRegisterByteFaultsFirst : Obligations.BadRegisterByteFaultsFirst :=
  fun _ s _ hb => ⟨_, exec_of_badReg s hb, rfl⟩

/-- With good register bytes, and a return address that is an address, no effect on the engine is a fault. -/
theorem EngineEffect.no_fault {i : Instr} {s t : State} (h : EngineEffect i s t) (hwf : i.wellFormed = true)
    (hrun : s.phase = .running) (hcall : i.mnemonic = .call → s.pc.toNat ≤ 253) :
    t.phase ≠ .faulted ∧ t.faultCause = s.faultCause ∧ t.faultInfo = s.faultInfo := by
  cases h with
  | keeps h =>
    obtain ⟨hphase, -, -, hcause, hinfo⟩ := h
    exact ⟨by simp [hphase, hrun], hcause, hinfo⟩
  | halts _ _ hphase _ h =>
    obtain ⟨-, hcause, hinfo⟩ := h
    exact ⟨by simp [hphase], hcause, hinfo⟩
  | badReg b hb => simp [(find?_regOperands_eq_none i).mpr hwf] at hb
  | retAddrOverflow hi hpc =>
    have hle := hcall hi
    simp only [State.returnAddr, Config.addrMax] at hpc
    omega

/-- Settles O34, by `EngineEffect.no_fault`. -/
theorem wellFormedInstructionsDoNotFault : Obligations.WellFormedInstructionsDoNotFault := by
  intro i s hwf hrun hcall
  obtain ⟨t, ht, hans⟩ := exec_answers s i
  exact ⟨t, ht, hans.engineEffect.no_fault hwf hrun hcall⟩

theorem exec_of_retAddrOverflow {i : Instr} {s : State} (hwf : i.wellFormed = true) (hi : i.mnemonic = .call)
    (hpc : Config.addrMax < s.returnAddr) :
    exec i s = .next (s.raise .retAddrOverflow (BitVec.ofNat 9 s.returnAddr)) := by
  cases i with
  | call a =>
    obtain ⟨ra, rfl⟩ := (isRegIndex_iff a).mp (by simpa [Instr.wellFormed, Instr.regOperands] using hwf)
    exact execCall_reg_overflow s ra hpc
  | _ => cases hi

/-! ### The first failing check (60_exceptions.md R178), case by case of a step -/

theorem firstFault_of_pc_gt {s : State} (hpc : 255 < s.pc.toNat) : firstFault s = some (.memBounds, s.pc.toNat) :=
  if_pos hpc

theorem firstFault_of_unknownOpcode {s : State} (hpc : s.pc.toNat ≤ 255)
    (hop : decodeOpcode (s.byteAt s.pc.toNat) = none) :
    firstFault s = some (.unknownOpcode, (s.byteAt s.pc.toNat).toNat) := by
  simp only [firstFault, hop, if_neg (Nat.not_lt.mpr hpc)]

theorem firstFault_of_operand_past_top {s : State} {m : Mnemonic} (hpc : s.pc.toNat ≤ 255)
    (hop : s.byteAt s.pc.toNat = m.opcode) (hlen : 256 < s.pc.toNat + m.format.length) :
    firstFault s = some (.memBounds, 256) := by
  have hmax : m.format.length ≤ 3 := m.format.length_le
  simp only [firstFault, hop, decodeOpcode_opcode, if_neg (Nat.not_lt.mpr hpc)]
  rcases (by omega : s.pc.toNat = 255 ∨ s.pc.toNat = 254 ∧ m.format.length = 3) with h | ⟨h, h3⟩
  · rw [if_pos ⟨by omega, by omega⟩, h]
  · rw [if_neg (by omega), if_pos ⟨h3, by omega⟩, h]

/-- A check that applies only when the format says so, as a search in at most one byte. -/
theorem find?_ite_singleton (c : Bool) (p : Byte → Bool) (a : Byte) :
    (if c then [a] else []).find? p = if c = true ∧ p a = true then some a else none := by
  cases c <;> simp [List.find?_singleton]

/-- Once every byte is fetched, the register operands are checked in order, and last CALL's return address. -/
theorem firstFault_of_fits {s : State} {m : Mnemonic} (hpc : s.pc.toNat ≤ 255)
    (hop : s.byteAt s.pc.toNat = m.opcode) (hfit : s.pc.toNat + m.format.length ≤ 256) :
    firstFault s =
      (((m.build (s.byteAt (s.pc.toNat + 1)) (s.byteAt (s.pc.toNat + 2))).regOperands.find?
          (fun x => decide (7 < x.toNat))).map fun x => (.regBounds, x.toNat)).or
        (if m = .call ∧ Config.addrMax < s.returnAddr then some (.retAddrOverflow, s.returnAddr) else none) := by
  simp only [firstFault, hop, decodeOpcode_opcode, if_neg (Nat.not_lt.mpr hpc)]
  rw [if_neg (by omega), if_neg (by omega), Mnemonic.regOperands_build, List.find?_append, find?_ite_singleton,
    find?_ite_singleton]
  simp only [decide_eq_true_eq, State.returnAddr, Config.addrMax]
  split_ifs <;> simp [*]

/-- A step raises the first failing check, in the state that holds the fetched opcode; when none fails it does not fault. -/
theorem step_firstFault {s : State} (hrun : s.phase = .running) :
    ∃ t, step s = .next t ∧
      ((∃ f v, firstFault s = some (f, v) ∧ FaultEntry f v (latchOpcode s) t) ∨
        (firstFault s = none ∧ t.phase ≠ .faulted ∧ t.faultCause = s.faultCause)) := by
  cases runningStep hrun with
  | pastTop hpc hstep =>
    exact ⟨_, hstep, .inl ⟨_, _, firstFault_of_pc_gt hpc, by rw [latchOpcode_of_gt s hpc]; rfl⟩⟩
  | unknownOpcode hpc hop hstep =>
    exact ⟨_, hstep, .inl ⟨_, _, firstFault_of_unknownOpcode hpc hop, latchOpcode_of_le s hpc ▸ rfl⟩⟩
  | operandPastTop m hpc hop hlen hstep =>
    refine ⟨_, hstep, .inl ⟨_, _, firstFault_of_operand_past_top hpc hop hlen, ?_⟩⟩
    rw [latchOpcode_of_le s hpc, ← hop]
    rfl
  | executes m hpc hop hfit hstep =>
    have hlatch : latchOpcode s = s.setIr m.opcode := hop ▸ latchOpcode_of_le s hpc
    rw [hstep, firstFault_of_fits hpc hop hfit, hlatch]
    generalize hi : m.build _ _ = i
    have hm : i.mnemonic = m := hi ▸ m.mnemonic_build _ _
    cases hbad : i.regOperands.find? (fun x => decide (7 < x.toNat)) with
    | some b => exact ⟨_, exec_of_badReg _ hbad, .inl ⟨_, _, rfl, rfl⟩⟩
    | none =>
      have hwf := (find?_regOperands_eq_none i).mp hbad
      by_cases hcall : m = .call ∧ Config.addrMax < s.returnAddr
      · rw [if_pos hcall]
        exact ⟨_, exec_of_retAddrOverflow hwf (hm.trans hcall.1) hcall.2, .inl ⟨_, _, rfl, rfl⟩⟩
      · rw [if_neg hcall]
        obtain ⟨t, ht, hans⟩ := exec_answers (s.setIr m.opcode) i
        have hle : i.mnemonic = .call → s.pc.toNat ≤ 253 := fun hic =>
          Nat.le_of_add_le_add_right (Nat.not_lt.mp fun h => hcall ⟨hm.symm.trans hic, h⟩ : s.pc.toNat + 2 ≤ 253 + 2)
        obtain ⟨hphase, hcause, -⟩ := hans.engineEffect.no_fault hwf hrun hle
        exact ⟨t, ht, .inr ⟨rfl, hphase, hcause⟩⟩

/-- Settles O35: `step_firstFault`, read once for a failing check and once for none. -/
theorem theFirstFailingCheckDecidesTheFault : Obligations.TheFirstFailingCheckDecidesTheFault := by
  intro s hrun
  have hlatch : (if s.pc.toNat ≤ 255 then s.setIr (s.byteAt s.pc.toNat) else s) = latchOpcode s := by
    split
    · next h => exact (latchOpcode_of_le s h).symm
    · next h => exact (latchOpcode_of_gt s (Nat.not_le.mp h)).symm
  rw [hlatch]
  obtain ⟨t, ht, ⟨f, v, hff, hentry⟩ | ⟨hff, hno⟩⟩ := step_firstFault hrun
  · refine ⟨fun f' v' h => ?_, fun h => ?_⟩
    · cases hff.symm.trans h
      exact ⟨t, ht, hentry⟩
    · cases hff.symm.trans h
  · refine ⟨fun f' v' h => ?_, fun _ => ⟨t, ht, hno⟩⟩
    cases hff.symm.trans h

/-! ### Precision, and what `ir` holds -/

/-- A fault changes phase and fault record only. -/
theorem EngineEffect.precise {i : Instr} {s t : State} (h : EngineEffect i s t) (hrun : s.phase = .running)
    (hfault : t.phase = .faulted) : ∃ f info, t = s.raise f info := by
  cases h with
  | keeps h =>
    obtain ⟨hphase, -⟩ := h
    simp [hphase, hrun] at hfault
  | halts _ _ hphase => simp [hphase] at hfault
  | badReg b _ ht => exact ⟨_, _, ht⟩
  | retAddrOverflow _ _ ht => exact ⟨_, _, ht⟩

/-- A step that ends in FAULTED changes `ir`, phase and fault record only. -/
theorem step_precise {s t : State} (hrun : s.phase = .running) (h : step s = .next t) (hfault : t.phase = .faulted) :
    ∃ op f info, t = (s.setIr op).raise f info := by
  cases runningStep hrun with
  | pastTop _ hstep => cases hstep.symm.trans h; exact ⟨s.ir, _, _, rfl⟩
  | unknownOpcode _ _ hstep => cases hstep.symm.trans h; exact ⟨_, _, _, rfl⟩
  | operandPastTop _ _ _ _ hstep => cases hstep.symm.trans h; exact ⟨_, _, _, rfl⟩
  | executes m _ _ _ hstep =>
    exact ⟨m.opcode, (exec_engineEffect (hstep.symm.trans h)).precise hrun hfault⟩

/-- Settles O36: the fault entry of `step_precise` leaves these six fields alone. -/
theorem faultsArePrecise : Obligations.FaultsArePrecise := by
  intro s t hrun h hfault
  obtain ⟨op, f, info, rfl⟩ := step_precise hrun h hfault
  exact ⟨rfl, rfl, rfl, rfl, rfl, rfl⟩

/-- Settles O12: the step's cases latch the byte at the pc when there is one, and no instruction writes `ir`. -/
theorem instructionRegisterHoldsTheLastOpcode : Obligations.InstructionRegisterHoldsTheLastOpcode := by
  intro s t hrun h
  cases runningStep hrun with
  | pastTop hpc hstep => cases hstep.symm.trans h; exact (if_neg (Nat.not_le.mpr hpc)).symm
  | unknownOpcode hpc _ hstep => cases hstep.symm.trans h; exact (if_pos hpc).symm
  | operandPastTop m hpc hop _ hstep =>
    cases hstep.symm.trans h
    rw [if_pos hpc, hop]
    rfl
  | executes m hpc hop _ hstep =>
    rw [if_pos hpc, hop, (exec_engineEffect (hstep.symm.trans h)).ir_eq]
    rfl

/-- Settles O41: of the effects on the engine only a halt leaves phase HALTED, and none leaves IDLE. -/
theorem onlyHltAndModByZeroHalt : Obligations.OnlyHltAndModByZeroHalt := by
  intro i s t hrun h
  cases exec_engineEffect h with
  | keeps h =>
    obtain ⟨hphase, -⟩ := h
    simp [hphase, hrun]
  | halts c hi hphase hcause =>
    refine ⟨by simp [hphase], fun _ => ?_⟩
    rcases hi with ⟨hi, hc⟩ | ⟨ra, rb, hi, hz, hc⟩
    · exact .inl ⟨hi, hcause.trans hc⟩
    · exact .inr ⟨ra, rb, hi, hz, hcause.trans hc⟩
  | badReg _ _ ht | retAddrOverflow _ _ ht => subst ht; simp

end Sys2Proof.Machine
end

section
/-!
PROOFS, family 41_alu.md: NOT, SHL, SHR and MOD, and every two-register instruction with one register as both operands. The
ALU's laws on numbers (Laws/Ops.lean) give the results; `State.aluTo_onlyRegAdvance3` is the frame of each.
-/

namespace Sys2Proof.Machine

/-! ### The ALU's results -/

theorem alu_not_eq (x y : Byte) : alu .not x y = ~~~x :=
  BitVec.eq_of_toNat_eq (by rw [alu_not_toNat, BitVec.toNat_not])

theorem alu_not_getLsbD (x y : Byte) {n : Nat} (hn : n < 8) : (alu .not x y).getLsbD n = !x.getLsbD n := by
  rw [alu_not_eq, BitVec.getLsbD_not, decide_eq_true hn, Bool.true_and]

/-- From 8 on the product with the power of two is a multiple of 256 (decision D21). -/
theorem alu_shl_of_ge (x y : Byte) (h : 8 ≤ y.toNat) : alu .shl x y = 0#8 := by
  refine BitVec.eq_of_toNat_eq ((alu_shl_toNat x y).trans (Nat.mod_eq_zero_of_dvd ?_))
  exact (pow_dvd_pow 2 h : 2 ^ 8 ∣ 2 ^ y.toNat).mul_left _

/-- A right shift clears a value below the power of two. -/
theorem alu_shr_of_lt (x y : Byte) (h : x.toNat < 2 ^ y.toNat) : alu .shr x y = 0#8 :=
  BitVec.eq_of_toNat_eq ((alu_shr_toNat x y).trans (Nat.div_eq_of_lt h))

theorem alu_shr_of_ge (x y : Byte) (h : 8 ≤ y.toNat) : alu .shr x y = 0#8 :=
  alu_shr_of_lt x y (x.isLt.trans_le (Nat.pow_le_pow_right Nat.two_pos h))

theorem alu_mod_lt (x y : Byte) (h : y ≠ 0#8) : alu .mod x y < y := by
  rw [BitVec.lt_def, alu_mod_toNat]
  exact Nat.mod_lt _ (Nat.pos_of_ne_zero fun hz => h (BitVec.eq_of_toNat_eq hz))

/-! ### The obligations -/

/-- Settles O15, by the law of NOT on numbers and on bits. -/
theorem notInvertsEveryBit : Obligations.NotInvertsEveryBit := by
  refine fun s ra pad => ⟨_, execNot_reg s ra pad, ?_, fun n hn => ?_, s.aluTo_onlyRegAdvance3 _ ra ra⟩
  · rw [State.reg_aluTo_same, alu_not_toNat]
  · rw [State.reg_aluTo_same, alu_not_getLsbD _ _ hn]

/-- Settles O17, by the laws of the two shifts, and for counts from 8 on by the bounds on the power of two. -/
theorem shiftsUseTheWholeCount : Obligations.ShiftsUseTheWholeCount := by
  refine fun s ra rb => ⟨⟨_, execShl_reg s ra rb, ?_, fun h => ?_, s.aluTo_onlyRegAdvance3 _ ra rb⟩,
    ⟨_, execShr_reg s ra rb, ?_, fun h => ?_, s.aluTo_onlyRegAdvance3 _ ra rb⟩⟩
  · rw [State.reg_aluTo_same, alu_shl_toNat]
  · rw [State.reg_aluTo_same, alu_shl_of_ge _ _ h]
  · rw [State.reg_aluTo_same, alu_shr_toNat]
  · rw [State.reg_aluTo_same, alu_shr_of_ge _ _ h]

/-- Settles O18: the law and the bound of the remainder, or the frame of a halt one past the opcode. -/
theorem modLeavesTheRemainderOrHalts : Obligations.ModLeavesTheRemainderOrHalts := by
  refine fun s ra rb => ⟨fun h => ⟨_, execMod_reg s ra rb h, ?_, ?_, s.aluTo_onlyRegAdvance3 _ ra rb⟩,
    fun h => ⟨_, execMod_reg_zero s ra rb h, s.halt_advance_haltsOnePast .modZero⟩⟩
  · rw [State.reg_aluTo_same, alu_mod_toNat]
  · rw [State.reg_aluTo_same]
    exact alu_mod_lt _ _ h

/-- With one register as both operands, a remainder is 0. -/
theorem alu_mod_self (x : Byte) : alu .mod x x = 0#8 :=
  BitVec.eq_of_toNat_eq ((alu_mod_toNat x x).trans (Nat.mod_self _))

/-- Settles O19: each operation's law on a value and itself; a value is below two to its own power, so SHR clears. -/
theorem sameRegisterForBothOperands : Obligations.SameRegisterForBothOperands := by
  intro s r
  refine ⟨⟨_, execAdd_reg s r r, ?_⟩, ⟨_, execMul_reg s r r, ?_⟩, ⟨_, execAnd_reg s r r, ?_⟩,
    ⟨_, execOr_reg s r r, ?_⟩, ⟨_, execXor_reg s r r, ?_⟩, ⟨_, execShl_reg s r r, ?_⟩, ⟨_, execShr_reg s r r, ?_⟩,
    ⟨_, execCmp_reg s r r, (compareFlag_eq_equal_iff _ _).mpr rfl, rfl⟩, ?_⟩
  · simp only [State.reg_aluTo_same, alu_add_toNat, Nat.two_mul]
  · simp only [State.reg_aluTo_same, alu_mul_toNat, Nat.pow_two]
  · exact (s.reg_aluTo_same _ r r).trans BitVec.and_self
  · exact (s.reg_aluTo_same _ r r).trans BitVec.or_self
  · exact (s.reg_aluTo_same _ r r).trans BitVec.xor_self
  · simp only [State.reg_aluTo_same, alu_shl_toNat]
  · exact (s.reg_aluTo_same _ r r).trans (alu_shr_of_lt _ _ Nat.lt_two_pow_self)
  · by_cases h : s.reg r = 0#8
    · exact ⟨_, execMod_reg_zero s r r h, h, fun _ => ⟨rfl, rfl⟩, fun hn => absurd h hn⟩
    · exact ⟨_, execMod_reg s r r h, (s.reg_aluTo_same _ r r).trans (alu_mod_self _),
        fun hz => absurd hz h, fun _ => rfl⟩

end Sys2Proof.Machine
end

section
/-!
PROOFS, families 43_stack.md and 44_control.md: PUSH, POP and CALL. The byte both PUSH and CALL store, and everything a store
on the stack leaves alone, is a lemma about one state, `State.pushed`.
-/

namespace Sys2Proof.Machine

/-! ### Storing on the stack -/

/-- SP down by one and `v` in the cell it then addresses: what PUSH and CALL have in common. -/
def State.pushed (s : State) (v : Byte) : State := s.decSp.storeByte s.decSp.stackAddr v

theorem execPush_pushed (s : State) (ra : Reg) :
    exec (.push ra.toByte) s = .next ((s.pushed (s.decSp.reg ra)).advance 2) := execPush_reg s ra

theorem execCall_pushed (s : State) (ra : Reg) (h : s.returnAddr ≤ Config.addrMax) :
    exec (.call ra.toByte) s = .next ((s.pushed (trunc8 s.returnAddr)).jumpTo (s.decSp.reg ra)) :=
  execCall_reg s ra h

/-- A push addresses the cell below SP, modulo 256 (decision D7). -/
theorem State.stackAddr_decSp_eq (s : State) : s.decSp.stackAddr = ((s.reg .sp).toNat + 255) % 256 := by
  rw [State.stackAddr_decSp]
  bv_omega

theorem State.byteAt_pushed_same (s : State) (v : Byte) : (s.pushed v).byteAt s.decSp.stackAddr = v :=
  Memory.read_write_same _ _ v

theorem State.pushed_sameMemoryBut (s : State) (v : Byte) : SameMemoryBut s.decSp.stackAddr s (s.pushed v) :=
  fun n hn => Memory.read_write_other _ _ n v hn

theorem State.decSp_sameRegsBut (s : State) : SameRegsBut [.sp] s s.decSp := fun r hr => by
  rw [State.reg_decSp, if_neg (List.ne_of_not_mem_cons hr)]

theorem State.reg_decSp_other (s : State) {r : Reg} (h : r ≠ .sp) : s.decSp.reg r = s.reg r := by
  rw [State.reg_decSp, if_neg h]

theorem State.reg_incSp_sp (s : State) : s.incSp.reg .sp = s.reg .sp + 1#8 := by rw [State.reg_incSp, if_pos rfl]

theorem State.reg_incSp_other (s : State) {r : Reg} (h : r ≠ .sp) : s.incSp.reg r = s.reg r := by
  rw [State.reg_incSp, if_neg h]

/-- Incrementing SP after a decrement restores it, at 0 and 255 too. -/
theorem State.reg_decSp_sp_add_one (s : State) : s.decSp.reg .sp + 1#8 = s.reg .sp := by
  rw [State.reg_decSp, if_pos rfl, BitVec.sub_add_cancel]

/-! ### One instruction after the other -/

theorem execAll_cons {i : Instr} {s t : State} (rest : List Instr) (h : exec i s = .next t) :
    execAll (i :: rest) s = execAll rest t := by
  rw [execAll, h]

/-! ### The obligations -/

/-- Settles O23, by the laws of a store on the stack. -/
theorem pushDecrementsThenStores : Obligations.PushDecrementsThenStores := by
  refine fun s ra => ⟨s.stackAddr_decSp_eq, _, execPush_pushed s ra, s.stackAddr_decSp_eq, ?_,
    s.pushed_sameMemoryBut _, s.decSp_sameRegsBut, rfl, rfl, rfl, rfl, rfl, rfl, rfl, rfl⟩
  have hstored : ((s.pushed (s.decSp.reg ra)).advance 2).byteAt s.decSp.stackAddr = s.decSp.reg ra :=
    s.byteAt_pushed_same _
  rw [hstored]
  split
  · next h => rw [h]; rfl
  · next h => exact s.reg_decSp_other h

/-- Settles O24: `r7` takes the byte and is then incremented; any other register takes it beside SP's increment. -/
theorem popLoadsThenIncrements : Obligations.PopLoadsThenIncrements := by
  refine fun s ra => ⟨_, execPop_reg s ra, fun h => ⟨?_, ?_⟩, fun h => ?_, fun r hr => ?_, sameMemory_of_mem_eq rfl, rfl,
    rfl, rfl, rfl, rfl, rfl, rfl, rfl⟩
  · rw [State.reg_advance, State.reg_incSp_other _ h, State.reg_setReg_same]
    rfl
  · rw [State.reg_advance, State.reg_incSp_sp, State.reg_setReg_other _ _ h.symm]
  · rw [State.reg_advance, State.reg_incSp_sp, h, State.reg_setReg_same]
    rfl
  · obtain ⟨hra, hsp⟩ : r ≠ ra ∧ r ≠ .sp := by simpa using hr
    rw [State.reg_advance, State.reg_incSp_other _ hsp, State.reg_setReg_other _ _ hra]

/-- POP right after a push of `v`: the register takes `v`, and SP's increment undoes its decrement. -/
theorem execPop_after_pushed (s : State) (v : Byte) (rb : Reg) :
    exec (.pop rb.toByte) ((s.pushed v).advance 2) =
      .next (((((s.pushed v).advance 2).setReg rb v).incSp).advance 2) := by
  have hread : ((s.pushed v).advance 2).mem.read ((s.pushed v).advance 2).stackAddr = v := s.byteAt_pushed_same v
  rw [execPop_reg, hread]

/-- Settles O25: POP reads the cell PUSH wrote, and SP's increment undoes its decrement. -/
theorem pushThenPopIsARoundTrip : Obligations.PushThenPopIsARoundTrip := by
  intro s ra rb hra hrb
  have hpush := execPush_pushed s ra
  rw [s.reg_decSp_other hra] at hpush
  have hsp : ((((s.pushed (s.reg ra)).advance 2).setReg rb (s.reg ra)).incSp.advance 2).reg .sp = s.reg .sp := by
    rw [State.reg_advance, State.reg_incSp_sp, State.reg_setReg_other _ _ hrb.symm]
    exact s.reg_decSp_sp_add_one
  refine ⟨_, (execAll_cons _ hpush).trans (execAll_cons _ (execPop_after_pushed s _ rb)), ?_, hsp,
    s.stackAddr_decSp_eq ▸ s.byteAt_pushed_same (s.reg ra),
    s.stackAddr_decSp_eq ▸ s.pushed_sameMemoryBut (s.reg ra), fun r hr => ?_⟩
  · rw [State.reg_advance, State.reg_incSp_other _ hrb, State.reg_setReg_same]
  · rcases eq_or_ne r .sp with rfl | hne
    · exact hsp
    · rw [State.reg_advance, State.reg_incSp_other _ hne, State.reg_setReg_other _ _ (List.ne_of_not_mem_cons hr)]
      exact s.reg_decSp_other hne

/-- Pushes that do not take SP below 0 write only the cells they pass, downward from SP. -/
theorem execAll_pushes (rs : List Reg) (s : State) (hlen : rs.length ≤ (s.reg .sp).toNat) :
    Completes (execAll (rs.map fun r => .push r.toByte) s)
      (fun t => (t.reg .sp).toNat = (s.reg .sp).toNat - rs.length ∧
        ∀ n, n < (s.reg .sp).toNat - rs.length ∨ (s.reg .sp).toNat ≤ n → t.byteAt n = s.byteAt n) := by
  induction rs generalizing s with
  | nil => exact ⟨s, rfl, rfl, fun _ _ => rfl⟩
  | cons r rs ih =>
    rw [List.length_cons] at hlen ⊢
    have hlt := (s.reg .sp).isLt
    have haddr : s.decSp.stackAddr = (s.reg .sp).toNat - 1 := by
      rw [s.stackAddr_decSp_eq]
      omega
    have hsp : (((s.pushed (s.decSp.reg r)).advance 2).reg .sp).toNat = (s.reg .sp).toNat - 1 := haddr
    obtain ⟨t, ht, htsp, htmem⟩ := ih ((s.pushed (s.decSp.reg r)).advance 2) (by omega)
    refine ⟨t, (execAll_cons _ (execPush_pushed s r)).trans ht, by omega, fun n hn => ?_⟩
    exact (htmem n (by omega)).trans (s.pushed_sameMemoryBut _ n (by omega))

/-- Settles O26, by `execAll_pushes` from SP 0xF4. -/
theorem pushesLeaveTheProgramBytes : Obligations.PushesLeaveTheProgramBytes := by
  intro rs s hsp hlen
  have hF4 : (s.reg .sp).toNat = 0xF4 := congrArg BitVec.toNat hsp
  have h := execAll_pushes rs s (hF4 ▸ hlen)
  rwa [hF4] at h

/-- Below 254 the return address is a byte. -/
theorem State.trunc8_returnAddr_toNat {s : State} (h : s.pc.toNat ≤ 253) :
    (trunc8 s.returnAddr).toNat = s.pc.toNat + 2 :=
  (trunc8_toNat _).trans (Nat.mod_eq_of_lt (by simp only [State.returnAddr]; omega))

/-- Settles O28: the laws of a store on the stack, or the overflow of the return address. -/
theorem callPushesTheReturnAddress : Obligations.CallPushesTheReturnAddress := by
  refine fun s ra => ⟨fun h => ?_, fun h => ?_⟩
  · have hle : s.returnAddr ≤ Config.addrMax := Nat.add_le_add_right h 2
    refine ⟨_, execCall_pushed s ra hle, s.stackAddr_decSp_eq, ?_, s.pushed_sameMemoryBut _, s.decSp_sameRegsBut,
      zext9_toNat _, rfl, rfl, rfl, rfl, rfl, rfl, rfl⟩
    exact (congrArg BitVec.toNat (s.byteAt_pushed_same _)).trans (State.trunc8_returnAddr_toNat h)
  · have haddr : s.returnAddr = 256 := congrArg (· + 2) h
    have hgt : Config.addrMax < s.returnAddr := haddr ▸ Nat.lt_succ_self 255
    exact ⟨_, execCall_reg_overflow s ra hgt, by rw [haddr]; rfl⟩

/-- Settles O32: RET reads the return address where CALL stored it, and SP's increment undoes its decrement. -/
theorem callThenRetIsARoundTrip : Obligations.CallThenRetIsARoundTrip := by
  intro s t u ra hpc ht hsp hcell
  cases (execCall_pushed s ra (Nat.add_le_add_right hpc 2)).symm.trans ht
  have haddr : u.stackAddr = s.decSp.stackAddr := congrArg BitVec.toNat hsp
  have hread : u.mem.read u.stackAddr = trunc8 s.returnAddr :=
    haddr ▸ hcell.trans (s.byteAt_pushed_same _)
  refine ⟨_, execRet_eq u, ?_, ?_⟩
  · rw [State.jumpTo_pc_toNat, hread, State.trunc8_returnAddr_toNat hpc]
  · rw [State.reg_jumpTo, State.reg_incSp_sp, hsp]
    exact s.reg_decSp_sp_add_one

/-! ### Memory: what instructions write, and what the next fetch reads (20_memory.md sections 1 and 5) -/

/-- An instruction leaves memory as it was, or it is a PUSH or a CALL and stores one byte on the stack. -/
theorem Answers.mem_cases {i : Instr} {s t : State} (h : Answers i s t) :
    t.mem = s.mem ∨ (i.mnemonic = .push ∨ i.mnemonic = .call) ∧ ∃ v, t.mem = (s.pushed v).mem := by
  cases h with
  | push _ ra => exact .inr ⟨.inl rfl, _, rfl⟩
  | call _ ra => exact .inr ⟨.inr rfl, _, rfl⟩
  | jeq | jne => exact .inl (by split <;> rfl)
  | _ => exact .inl rfl

/-- Settles O38, by `Answers.mem_cases`. -/
theorem onlyPushAndCallWriteMemory : Obligations.OnlyPushAndCallWriteMemory := by
  intro i s t h
  rcases (exec_cases s i t h).mem_cases with hmem | ⟨hi, v, hmem⟩
  · exact ⟨fun _ _ => sameMemory_of_mem_eq hmem, fun n _ => sameMemory_of_mem_eq hmem n⟩
  · refine ⟨fun hpush hcall => absurd hi (not_or.mpr ⟨hpush, hcall⟩), fun n hn => ?_⟩
    exact (congrArg (Memory.read · n) hmem).trans (s.pushed_sameMemoryBut v n hn)

/-- What an instruction that stores a byte answers: the byte pushed, and a new pc. -/
theorem PushesByte.exec_eq {i : Instr} {s t : State} {v : Byte} (h : PushesByte i s v) (ht : exec i s = .next t) :
    ∃ target, t = (s.pushed v).setPc target := by
  rcases h with ⟨ra, rfl, rfl⟩ | ⟨ra, rfl, hpc, hv⟩
  · cases (execPush_pushed s ra).symm.trans ht
    exact ⟨_, by rw [← State.reg_decSp]; rfl⟩
  · cases (execCall_pushed s ra (Nat.add_le_add_right hpc 2)).symm.trans ht
    have hv : trunc8 s.returnAddr = v := BitVec.eq_of_toNat_eq ((State.trunc8_returnAddr_toNat hpc).trans hv.symm)
    exact ⟨_, by rw [hv]; rfl⟩

theorem HoldsBytes.cons {s : State} {addr : Nat} {v : Byte} {bytes : List Byte} (hv : s.byteAt addr = v)
    (h : ∀ k, k < bytes.length → bytes[k]? = some (s.byteAt (addr + 1 + k))) : HoldsBytes s addr (v :: bytes) := by
  intro k hk
  match k with
  | 0 => exact congrArg some hv.symm
  | k + 1 =>
    rw [List.getElem?_cons_succ, h k (Nat.lt_of_succ_lt_succ hk), Nat.add_assoc, Nat.add_comm 1 k]

/-- A running engine's step takes the byte at the pc as its opcode byte, whatever it is. -/
theorem stepReadsOpcode {t : State} (hrun : t.phase = .running) (hpc : t.pc.toNat ≤ 255) :
    StepReadsOpcode (t.byteAt t.pc.toNat) t := by
  refine ⟨?_, fun i hi hfit hbytes => ?_, fun hop => ?_⟩
  · obtain ⟨u, hu⟩ := everyStepAnswersANextState t
    exact ⟨u, hu, (instructionRegisterHoldsTheLastOpcode t u hrun hu).trans (if_pos hpc)⟩
  · rw [← hi]
    exact step_of_holdsBytes hrun (encode_length i ▸ hfit) (.cons hi.symm hbytes)
  · exact ⟨_, step_of_unknownOpcode hrun hpc ((decodeOpcode_eq_none_iff _).mpr hop), rfl⟩

/-- Settles O27: the byte stored is the one its cell reads as, so it stands in the fetch window, first when at the pc. -/
theorem pushedByteIsFetchedNext : Obligations.PushedByteIsFetchedNext := by
  intro i s t v hi ht
  obtain ⟨target, rfl⟩ := hi.exec_eq ht
  have hcell : ((s.pushed v).setPc target).byteAt s.decSp.stackAddr = v := s.byteAt_pushed_same v
  have hle : s.decSp.stackAddr ≤ 255 := s.decSp.stackAddr_le
  refine ⟨fun k hk haddr => ?_, fun hrun haddr => ?_⟩
  · rw [fetchWindow_getElem? _ k hk (haddr ▸ hle), haddr]
    exact congrArg some hcell
  · have h := stepReadsOpcode (t := (s.pushed v).setPc target) hrun (haddr ▸ hle)
    rwa [haddr, hcell] at h

end Sys2Proof.Machine
end

section
/-!
PROOFS, family 10_state.md sections 6 to 8: the output and the status registers are never read. An instruction respects every
relation between states that agree on what it reads and that its updates keep (`ReadsAlike`); the obligations name two.
-/

namespace Sys2Proof.Machine

/-- Related states agree on memory, registers, pc and flag, and stay related under every update a meaning is built from. -/
structure ReadsAlike (R : State → State → Prop) : Prop where
  mem : ∀ {s s'}, R s s' → s'.mem = s.mem
  regs : ∀ {s s'}, R s s' → s'.regs = s.regs
  pc : ∀ {s s'}, R s s' → s'.pc = s.pc
  fl : ∀ {s s'}, R s s' → s'.fl = s.fl
  setReg : ∀ {s s'} r v, R s s' → R (s.setReg r v) (s'.setReg r v)
  storeByte : ∀ {s s'} a v, R s s' → R (s.storeByte a v) (s'.storeByte a v)
  setPc : ∀ {s s'} t, R s s' → R (s.setPc t) (s'.setPc t)
  setFl : ∀ {s s'} f, R s s' → R (s.setFl f) (s'.setFl f)
  emit : ∀ {s s'} v, R s s' → R (s.emit v) (s'.emit v)
  halt : ∀ {s s'} c, R s s' → R (s.halt c) (s'.halt c)
  raise : ∀ {s s'} f info, R s s' → R (s.raise f info) (s'.raise f info)

namespace ReadsAlike

variable {R : State → State → Prop} {s s' : State} (hR : ReadsAlike R) (h : R s s')

include hR h

theorem reg (r : Reg) : s'.reg r = s.reg r := congrArg (·.get r) (hR.regs h)

theorem returnAddr : s'.returnAddr = s.returnAddr := congrArg (fun pc : Word9 => pc.toNat + 2) (hR.pc h)

theorem stackAddr : s'.stackAddr = s.stackAddr := congrArg BitVec.toNat (hR.reg h .sp)

theorem advance (len : Nat) : R (s.advance len) (s'.advance len) := by
  rw [State.advance, State.advance, hR.pc h]
  exact hR.setPc _ h

theorem jumpTo (v : Byte) : R (s.jumpTo v) (s'.jumpTo v) := hR.setPc _ h

theorem decSp : R s.decSp s'.decSp := by
  rw [State.decSp, State.decSp, hR.reg h]
  exact hR.setReg _ _ h

theorem incSp : R s.incSp s'.incSp := by
  rw [State.incSp, State.incSp, hR.reg h]
  exact hR.setReg _ _ h

theorem pushed (v : Byte) : R (s.pushed v) (s'.pushed v) := by
  rw [State.pushed, State.pushed, hR.stackAddr (hR.decSp h)]
  exact hR.storeByte _ v (hR.decSp h)

theorem aluTo (op : AluOp) (ra rb : Reg) : R (s.aluTo op ra rb) (s'.aluTo op ra rb) := by
  rw [State.aluTo, State.aluTo, hR.reg h, hR.reg h]
  exact hR.advance (hR.setReg _ _ h) 3

theorem jumpIf (taken : Bool) (target : Byte) :
    R (if taken then s.jumpTo target else s.advance 2) (if taken then s'.jumpTo target else s'.advance 2) := by
  split
  · exact hR.jumpTo h target
  · exact hR.advance h 2

/-- Related states answer related states under every instruction. -/
theorem exec {i : Instr} {t : State} (ht : exec i s = .next t) : ∃ t', Machine.exec i s' = .next t' ∧ R t t' := by
  cases exec_cases s i t ht with
  | badReg _ _ b hb => exact ⟨_, exec_of_badReg s' hb, hR.raise _ _ h⟩
  | add _ ra rb => exact ⟨_, execAdd_reg s' ra rb, hR.aluTo h _ ra rb⟩
  | mul _ ra rb => exact ⟨_, execMul_reg s' ra rb, hR.aluTo h _ ra rb⟩
  | and _ ra rb => exact ⟨_, execAnd_reg s' ra rb, hR.aluTo h _ ra rb⟩
  | or _ ra rb => exact ⟨_, execOr_reg s' ra rb, hR.aluTo h _ ra rb⟩
  | xor _ ra rb => exact ⟨_, execXor_reg s' ra rb, hR.aluTo h _ ra rb⟩
  | shl _ ra rb => exact ⟨_, execShl_reg s' ra rb, hR.aluTo h _ ra rb⟩
  | shr _ ra rb => exact ⟨_, execShr_reg s' ra rb, hR.aluTo h _ ra rb⟩
  | not _ ra pad => exact ⟨_, execNot_reg s' ra pad, hR.aluTo h _ ra ra⟩
  | mod _ ra rb hz => exact ⟨_, execMod_reg s' ra rb (hR.reg h rb ▸ hz), hR.aluTo h _ ra rb⟩
  | modZero _ ra rb hz => exact ⟨_, execMod_reg_zero s' ra rb (hR.reg h rb ▸ hz), hR.halt _ (hR.advance h 1)⟩
  | cmp _ ra rb =>
    refine ⟨_, execCmp_reg s' ra rb, ?_⟩
    rw [hR.reg h, hR.reg h]
    exact hR.advance (hR.setFl _ h) 3
  | hlt => exact ⟨_, execHlt_eq s', hR.halt _ (hR.advance h 1)⟩
  | ldi _ ra imm => exact ⟨_, execLdi_reg s' ra imm, hR.advance (hR.setReg _ _ h) 3⟩
  | prn _ ra =>
    refine ⟨_, execPrn_reg s' ra, ?_⟩
    rw [hR.reg h]
    exact hR.advance (hR.emit _ h) 2
  | push _ ra =>
    refine ⟨_, execPush_pushed s' ra, ?_⟩
    rw [hR.reg (hR.decSp h)]
    exact hR.advance (hR.pushed h _) 2
  | pop _ ra =>
    refine ⟨_, execPop_reg s' ra, ?_⟩
    rw [hR.mem h, hR.stackAddr h]
    exact hR.advance (hR.incSp (hR.setReg _ _ h)) 2
  | call _ ra hle =>
    refine ⟨_, execCall_pushed s' ra (hR.returnAddr h ▸ hle), ?_⟩
    rw [hR.reg (hR.decSp h), hR.returnAddr h]
    exact hR.jumpTo (hR.pushed h _) _
  | callOverflow _ ra hgt =>
    refine ⟨_, execCall_reg_overflow s' ra (hR.returnAddr h ▸ hgt), ?_⟩
    rw [hR.returnAddr h]
    exact hR.raise _ _ h
  | ret =>
    refine ⟨_, execRet_eq s', ?_⟩
    rw [hR.mem h, hR.stackAddr h]
    exact hR.jumpTo (hR.incSp h) _
  | jmp _ ra => exact ⟨_, execJmp_reg s' ra, hR.reg h ra ▸ hR.jumpTo h _⟩
  | jeq _ ra =>
    refine ⟨_, execJeq_reg s' ra, ?_⟩
    rw [hR.fl h, hR.reg h]
    exact hR.jumpIf h _ _
  | jne _ ra =>
    refine ⟨_, execJne_reg s' ra, ?_⟩
    rw [hR.fl h, hR.reg h]
    exact hR.jumpIf h _ _

end ReadsAlike

/-! ### The output -/

/-- The same state with other output before its own. -/
def State.withEarlier (earlier : List Byte) (s : State) : State := { s with out := earlier ++ s.out }

theorem readsAlike_withEarlier (earlier : List Byte) : ReadsAlike fun s s' => s' = s.withEarlier earlier where
  mem := by rintro _ _ rfl; rfl
  regs := by rintro _ _ rfl; rfl
  pc := by rintro _ _ rfl; rfl
  fl := by rintro _ _ rfl; rfl
  setReg := by rintro _ _ _ _ rfl; rfl
  storeByte := by rintro _ _ _ _ rfl; rfl
  setPc := by rintro _ _ _ rfl; rfl
  setFl := by rintro _ _ _ rfl; rfl
  emit := by rintro _ _ _ rfl; simp [State.withEarlier, State.emit]
  halt := by rintro _ _ _ rfl; rfl
  raise := by rintro _ _ _ _ rfl; rfl

/-- An instruction keeps the output, or it is a PRN and appends a register. -/
theorem Answers.out_cases {i : Instr} {s t : State} (h : Answers i s t) :
    t.out = s.out ∨ i.mnemonic = .prn ∧ ∃ r : Reg, t.out = s.out ++ [s.reg r] := by
  cases h with
  | prn _ ra => exact .inr ⟨rfl, ra, rfl⟩
  | jeq | jne => exact .inl (by split <;> rfl)
  | _ => exact .inl rfl

/-- Settles O39: who writes the output, from `Answers`; that no instruction reads it, from `readsAlike_withEarlier`. -/
theorem outputOnlyGrowsAndIsNeverRead : Obligations.OutputOnlyGrowsAndIsNeverRead := by
  refine ⟨fun i s t h => (exec_cases s i t h).out_cases, fun i s earlier => ?_⟩
  obtain ⟨t, ht, -⟩ := exec_answers s i
  obtain ⟨t', ht', rfl⟩ := (readsAlike_withEarlier earlier).exec rfl ht
  rw [ht]
  exact ht'

/-! ### The status registers -/

theorem readsAlike_sameForProgram : ReadsAlike SameForProgram where
  mem := fun ⟨hmem, _⟩ => hmem
  regs := fun ⟨_, hregs, _⟩ => hregs
  pc := fun ⟨_, _, hpc, _⟩ => hpc
  fl := fun ⟨_, _, _, hfl, _⟩ => hfl
  setReg r v := fun ⟨hmem, hregs, hrest⟩ => ⟨hmem, congrArg (·.set r v) hregs, hrest⟩
  storeByte a v := fun ⟨hmem, hrest⟩ => ⟨congrArg (·.write a v) hmem, hrest⟩
  setPc _ := fun ⟨hmem, hregs, _, hrest⟩ => ⟨hmem, hregs, rfl, hrest⟩
  setFl _ := fun ⟨hmem, hregs, hpc, _, hphase⟩ => ⟨hmem, hregs, hpc, rfl, hphase⟩
  emit _ := id
  halt _ := fun ⟨hmem, hregs, hpc, hfl, _⟩ => ⟨hmem, hregs, hpc, hfl, rfl⟩
  raise _ _ := fun ⟨hmem, hregs, hpc, hfl, _⟩ => ⟨hmem, hregs, hpc, hfl, rfl⟩

/-- Settles O40: instructions respect looking alike to a program. -/
theorem statusRegistersAreNeverRead : Obligations.StatusRegistersAreNeverRead := by
  intro i s s' t t' h ht ht'
  obtain ⟨u, hu, hR⟩ := readsAlike_sameForProgram.exec h ht
  cases hu.symm.trans ht'
  exact hR

end Sys2Proof.Machine
end

section
/-!
PROOFS, family 70_reset_and_hazards.md: reset, load, boot, and the model's own placing of a word. Bytes stored from an
address upward are held there (`storeBytes_holdsBytes`), so `step_of_holdsBytes` runs the instruction at their head.
-/

namespace Sys2Proof.Machine

/-- Settles O42: reset's memory lists no cell, and its other fields are fixed. -/
theorem resetClearsEverythingButSp : Obligations.ResetClearsEverythingButSp := by
  have hgpr : ∀ r : Reg, r ≠ .sp → State.reset.reg r = 0x00#8 := fun r h => by
    cases r with
    | r7 => exact absurd rfl h
    | _ => rfl
  exact fun s => ⟨fun _ => rfl, rfl, hgpr, rfl, rfl, rfl, rfl, rfl⟩

/-- Settles O47: the codes are those of the definitions, and each flag test is that of the flag's two bits, flag by flag. -/
theorem statusEncodings : Obligations.StatusEncodings := by
  refine ⟨rfl, rfl, rfl, ⟨rfl, rfl, rfl⟩, fun _ => rfl, fun f => ?_⟩
  cases f <;> decide

/-! ### Load and run -/

theorem hostLoad_of_idle {s : State} {image : List Byte} (h : s.phase = .idle) (hlen : image.length ≤ 256) :
    hostLoad image s = .next (s.storeBytes 0 image) := by
  rw [hostLoad, h]
  exact if_pos hlen

theorem hostLoad_of_idle_of_gt {s : State} {image : List Byte} (h : s.phase = .idle) (hlen : 256 < image.length) :
    hostLoad image s = .refused (.imageTooLong image.length) := by
  rw [hostLoad, h]
  exact if_neg (Nat.not_le.mpr hlen)

theorem hostLoad_of_not_idle {s : State} (image : List Byte) (h : s.phase ≠ .idle) : hostLoad image s = .next s := by
  unfold hostLoad
  split
  · exact absurd ‹_› h
  all_goals rfl

theorem hostRun_of_not_idle {s : State} (h : s.phase ≠ .idle) : hostRun s = s := by
  unfold hostRun
  split
  · exact absurd ‹_› h
  all_goals rfl

/-- Settles O44, by the cases of the host's load and the law of stored bytes. -/
theorem loadWritesTheImageFromZero : Obligations.LoadWritesTheImageFromZero := by
  refine fun image s => ⟨fun h hlen => ?_, hostLoad_of_idle_of_gt, fun h => ?_⟩
  · exact ⟨_, hostLoad_of_idle h hlen, s.storeBytes_read 0 image, s.storeBytes_eq 0 image⟩
  · exact ⟨hostLoad_of_not_idle image h, hostRun_of_not_idle h⟩

/-! ### Running stored bytes -/

theorem storeBytes_holdsBytes (s : State) (addr : Nat) (bytes rest : List Byte) :
    HoldsBytes (s.storeBytes addr (bytes ++ rest)) addr bytes := by
  intro k hk
  rw [State.byteAt, State.storeBytes_read, if_pos (Nat.le_add_right _ _), Nat.add_sub_cancel_left,
    List.getElem?_append_left hk, List.getElem?_eq_getElem hk, Option.getD_some]

theorem HoldsBytes.of_mem_eq {s t : State} {addr : Nat} {bytes : List Byte} (h : HoldsBytes s addr bytes)
    (hmem : t.mem = s.mem) : HoldsBytes t addr bytes := fun k hk => by
  rw [h k hk, sameMemory_of_mem_eq hmem]

/-- A running engine whose memory is that of a state with an instruction stored at the pc executes the instruction. -/
theorem step_of_storeBytes {s t : State} {i : Instr} {rest : List Byte} (hrun : t.phase = .running)
    (hmem : t.mem = (s.storeBytes t.pc.toNat (encode i ++ rest)).mem) (hfit : t.pc.toNat + (encode i).length ≤ 256) :
    step t = exec i (t.setIr i.mnemonic.opcode) :=
  step_of_holdsBytes hrun hfit ((storeBytes_holdsBytes s _ _ rest).of_mem_eq hmem)

/-- Settles O45: load stores the image at 0, where reset has left the pc, and run keeps memory and pc. -/
theorem bootRunsTheHeadOfTheImage : Obligations.BootRunsTheHeadOfTheImage := by
  intro i rest hlen
  have hload := State.reset.storeBytes_eq 0 (encode i ++ rest)
  have hrun : hostRun (State.reset.storeBytes 0 (encode i ++ rest)) =
      { State.reset with mem := (State.reset.storeBytes 0 (encode i ++ rest)).mem, phase := .running } := by
    rw [hload]
    rfl
  have hfit : (encode i).length ≤ 256 := Nat.le_of_add_right_le (List.length_append ▸ hlen)
  refine ⟨_, hostLoad_of_idle rfl hlen, ?_⟩
  dsimp only
  rw [hrun]
  exact step_of_storeBytes (s := State.reset) (rest := rest) rfl rfl ((Nat.zero_add _).trans_le hfit)

/-- Three bytes fit where a word is placed (log entry 14). -/
theorem placeAt_add_three_le (s : State) : (placeAt s).toNat + 3 ≤ 256 := by
  unfold placeAt
  split
  · assumption
  · decide

theorem eq_encode_of_decodeTableWord {nbits w : Nat} {i : Instr} (h : decodeTableWord nbits w = some i) :
    ∃ rest, tableWordBytes nbits w = encode i ++ rest := by
  unfold decodeTableWord at h
  split at h
  · next i' rest hd =>
    cases h
    exact ⟨rest, eq_encode_of_decode hd⟩
  · cases h

/-- Settles O46: the word's bytes are stored where the pc is put, and begin with the encoding of what they decode to. -/
theorem placedWordRunsNext : Obligations.PlacedWordRunsNext := by
  intro s nbits w i h
  obtain ⟨rest, hbytes⟩ := eq_encode_of_decodeTableWord h
  have hplaced := (s.setPc (placeAt s)).storeBytes_eq (placeAt s).toNat (tableWordBytes nbits w)
  have hpc : (s.withFetchWord nbits w).pc = placeAt s := by rw [State.withFetchWord, hplaced]; rfl
  refine ⟨(s.withFetchWord nbits w).setIr i.mnemonic.opcode,
    step_of_storeBytes (s := s.setPc (placeAt s)) (rest := rest) rfl ?_ ?_, ?_, ?_, ?_, rfl⟩
  · rw [hpc, ← hbytes]; rfl
  · have hlen : (encode i).length ≤ 3 := encode_length_le i
    have hroom := placeAt_add_three_le s
    rw [hpc]
    omega
  all_goals
    rw [State.withFetchWord, hplaced]
    rfl

end Sys2Proof.Machine
end

section
/-!
PROOFS, family 60_exceptions.md: the invariant. For each phase `Inv` comes down to a few facts (`inv_running_iff` and its
kin); a step from RUNNING then owes memory's form and the pc's bound, which are read off `Answers`, and the fault record of
its effect on the engine.
-/

namespace Sys2Proof.Machine

/-! ### The invariant in each phase -/

theorem inv_idle_iff {s : State} (h : s.phase = .idle) :
    Inv s ↔ s.mem.wf = true ∧ s = { State.reset with mem := s.mem } := by
  refine ⟨fun ⟨hwf, _, _, _, _, hidle⟩ => ⟨hwf, hidle h⟩, fun ⟨hwf, hs⟩ => ?_⟩
  rw [hs]
  exact ⟨hwf, Nat.zero_le _, by simp [State.reset], by simp [State.reset], rfl, fun _ => rfl⟩

theorem faultRecord_of_none {s : State} (h : s.faultCause = .none) : FaultRecord s ↔ s.faultInfo = 0#9 := by
  rw [FaultRecord, h]

theorem inv_running_iff {s : State} (h : s.phase = .running) :
    Inv s ↔ s.mem.wf = true ∧ s.pc.toNat ≤ 256 ∧ s.haltCause = .none ∧ s.faultCause = .none ∧ s.faultInfo = 0#9 := by
  simp +contextual [Inv, h, faultRecord_of_none]

theorem inv_halted_iff {s : State} (h : s.phase = .halted) :
    Inv s ↔ s.mem.wf = true ∧ s.pc.toNat ≤ 256 ∧ s.haltCause ≠ .none ∧ s.faultCause = .none ∧ s.faultInfo = 0#9 := by
  simp +contextual [Inv, h, faultRecord_of_none]

theorem inv_faulted_iff {s : State} (h : s.phase = .faulted) :
    Inv s ↔ s.mem.wf = true ∧ s.pc.toNat ≤ 256 ∧ s.haltCause = .none ∧ s.faultCause ≠ .none ∧ FaultRecord s := by
  simp [Inv, h]

/-- Settles O48, by the invariant of IDLE. -/
theorem resetMeetsTheInvariant : Obligations.ResetMeetsTheInvariant := (inv_idle_iff rfl).mpr ⟨rfl, rfl⟩

/-! ### Memory's form and the pc's bound -/

theorem Answers.mem_wf {i : Instr} {s t : State} (h : Answers i s t) (hwf : s.mem.wf = true) : t.mem.wf = true := by
  rcases h.mem_cases with hmem | ⟨-, v, hmem⟩
  · rwa [hmem]
  · rw [hmem]
    exact Memory.wf_write _ _ v (Nat.lt_succ_of_le s.decSp.stackAddr_le) hwf

theorem add_ofNat_toNat_le {pc : Word9} {n : Nat} (h : pc.toNat + n ≤ 256) : (pc + BitVec.ofNat 9 n).toNat ≤ 256 := by
  rw [BitVec.toNat_add, BitVec.toNat_ofNat]
  omega

theorem State.jumpTo_pc_le (s : State) (v : Byte) : (s.jumpTo v).pc.toNat ≤ 256 :=
  s.jumpTo_pc_toNat v ▸ Nat.le_of_lt v.isLt

/-- An instruction that fits moves the pc on by at most its length, or jumps to a byte: one past the top at most. -/
theorem Answers.pc_le {i : Instr} {s t : State} (h : Answers i s t) (hfit : s.pc.toNat + i.length ≤ 256) :
    t.pc.toNat ≤ 256 := by
  cases h with
  | badReg | callOverflow => exact Nat.le_of_add_right_le hfit
  | hlt => exact add_ofNat_toNat_le hfit
  | modZero => exact add_ofNat_toNat_le (Nat.le_of_add_right_le (k := 2) hfit)
  | prn | push | pop => exact add_ofNat_toNat_le (n := 2) hfit
  | call | ret | jmp => exact State.jumpTo_pc_le _ _
  | jeq | jne =>
    split
    · exact State.jumpTo_pc_le _ _
    · exact add_ofNat_toNat_le (n := 2) hfit
  | _ => exact add_ofNat_toNat_le (n := 3) hfit

/-! ### A step keeps the invariant -/

/-- Raising a fault in RUNNING owes only the fault's record. -/
theorem inv_raise {s : State} {f : FaultCause} {info : Word9} (hinv : Inv s) (hrun : s.phase = .running)
    (hf : f ≠ .none) (hrecord : FaultRecord (s.raise f info)) : Inv (s.raise f info) := by
  obtain ⟨hwf, hpc, hhalt, -, -⟩ := (inv_running_iff hrun).mp hinv
  exact (inv_faulted_iff rfl).mpr ⟨hwf, hpc, hhalt, hf, hrecord⟩

theorem inv_setIr {s : State} (hinv : Inv s) (hrun : s.phase = .running) (op : Byte) : Inv (s.setIr op) :=
  (inv_running_iff (s := s.setIr op) hrun).mpr ((inv_running_iff hrun).mp hinv)

theorem HaltsWith.cause_ne_none {i : Instr} {s : State} {c : HaltCause} (h : HaltsWith i s c) : c ≠ .none := by
  rcases h with ⟨-, rfl⟩ | ⟨_, _, -, -, rfl⟩ <;> simp

/-- An instruction with a register operand takes at least two bytes. -/
theorem two_le_length_of_badReg {i : Instr} {b : Byte}
    (hb : i.regOperands.find? (fun x => decide (7 < x.toNat)) = some b) : 2 ≤ i.length := by
  cases i with
  | hlt | ret => cases hb
  | _ => simp [Instr.length, Instr.mnemonic, Mnemonic.format, Format.length]

theorem exec_keeps_inv {i : Instr} {s t : State} (hinv : Inv s) (hrun : s.phase = .running)
    (hir : s.ir = i.mnemonic.opcode) (hfit : s.pc.toNat + i.length ≤ 256) (h : exec i s = .next t) : Inv t := by
  obtain ⟨hwf, hpc, hhalt, hcause, hinfo⟩ := (inv_running_iff hrun).mp hinv
  have hans := exec_cases s i t h
  have hwf' := hans.mem_wf hwf
  have hpc' := hans.pc_le hfit
  cases hans.engineEffect with
  | keeps heng =>
    obtain ⟨hphase, hhalt', -, hcause', hinfo'⟩ := heng
    exact (inv_running_iff (hphase.trans hrun)).mpr
      ⟨hwf', hpc', hhalt'.trans hhalt, hcause'.trans hcause, hinfo'.trans hinfo⟩
  | halts c hi hphase hcause' hrecord =>
    obtain ⟨-, hfc, hfi⟩ := hrecord
    exact (inv_halted_iff hphase).mpr
      ⟨hwf', hpc', hcause' ▸ hi.cause_ne_none, hfc.trans hcause, hfi.trans hinfo⟩
  | badReg b hb ht =>
    have hgt : 7 < b.toNat := by simpa using List.find?_some hb
    have hlen := two_le_length_of_badReg hb
    have hlt := b.isLt
    subst ht
    refine inv_raise hinv hrun nofun ⟨?_, ?_, ?_⟩
    · rw [State.raise_faultInfo, zext9_toNat]; omega
    · rw [State.raise_faultInfo, zext9_toNat]; omega
    · rw [State.raise_pc]; omega
  | retAddrOverflow hi hgt ht =>
    have hlen : i.length = 2 := by rw [Instr.length, hi]; rfl
    have haddr : s.pc.toNat = 254 := by
      simp only [State.returnAddr, Config.addrMax] at hgt
      omega
    subst ht
    refine inv_raise hinv hrun nofun ⟨?_, BitVec.eq_of_toNat_eq haddr, hi ▸ hir⟩
    rw [State.raise_faultInfo, State.returnAddr, haddr]

/-- Settles O49: the fetch faults owe their records, and `exec_keeps_inv` covers an instruction that fits. -/
theorem stepKeepsTheInvariant : Obligations.StepKeepsTheInvariant := by
  intro s t hinv h
  by_cases hrun : s.phase = .running
  case neg =>
    cases (step_not_running s hrun).symm.trans h
    exact hinv
  obtain ⟨-, hpc, -⟩ := (inv_running_iff hrun).mp hinv
  cases runningStep hrun with
  | pastTop hgt hstep =>
    have haddr : s.pc.toNat = 256 := by omega
    cases hstep.symm.trans h
    exact inv_raise hinv hrun nofun ⟨by rw [State.raise_faultInfo, haddr], by rw [State.raise_pc]; omega⟩
  | unknownOpcode hle hop hstep =>
    cases hstep.symm.trans h
    exact inv_raise (inv_setIr hinv hrun _) hrun nofun ⟨rfl, hop, hle⟩
  | operandPastTop m hle hop hlen hstep =>
    have hmax : m.format.length ≤ 3 := m.format.length_le
    have h254 : 254 ≤ s.pc.toNat := by omega
    cases hstep.symm.trans h
    exact inv_raise (inv_setIr hinv hrun _) hrun nofun ⟨rfl, h254⟩
  | executes m hle hop hfit hstep =>
    refine exec_keeps_inv (inv_setIr hinv hrun m.opcode) hrun ?_ ?_ (hstep.symm.trans h)
    · rw [State.setIr_ir, Mnemonic.mnemonic_build]
    · rwa [Instr.length, Mnemonic.mnemonic_build]

/-! ### The host keeps it, and every reachable state has it -/

/-- In IDLE the invariant allows any memory in canonical form. -/
theorem inv_idle_withMem {s : State} {m : Memory} (hinv : Inv s) (hidle : s.phase = .idle) (hm : m.wf = true) :
    Inv { s with mem := m } := by
  obtain ⟨-, hs⟩ := (inv_idle_iff hidle).mp hinv
  exact (inv_idle_iff (s := { s with mem := m }) hidle).mpr ⟨hm, by rw [hs]⟩

theorem hostLoad_keeps_inv {image : List Byte} {s t : State} (hinv : Inv s) (h : hostLoad image s = .next t) :
    Inv t := by
  by_cases hidle : s.phase = .idle
  case neg =>
    cases (hostLoad_of_not_idle image hidle).symm.trans h
    exact hinv
  rcases Nat.lt_or_ge 256 image.length with hlen | hlen
  · cases (hostLoad_of_idle_of_gt hidle hlen).symm.trans h
  · cases (hostLoad_of_idle hidle hlen).symm.trans h
    obtain ⟨hwf, -⟩ := (inv_idle_iff hidle).mp hinv
    rw [s.storeBytes_eq 0 image]
    exact inv_idle_withMem hinv hidle (s.storeBytes_wf 0 image ((Nat.zero_add _).trans_le hlen) hwf)

theorem hostRun_keeps_inv {s : State} (hinv : Inv s) : Inv (hostRun s) := by
  by_cases hidle : s.phase = .idle
  case neg => rwa [hostRun_of_not_idle hidle]
  obtain ⟨hwf, hs⟩ := (inv_idle_iff hidle).mp hinv
  rw [hostRun_of_idle hidle, hs]
  exact (inv_running_iff rfl).mpr ⟨hwf, Nat.zero_le _, rfl, rfl, rfl⟩

/-- Settles O50, by the cases of the host's two operations. -/
theorem hostOperationsKeepTheInvariant : Obligations.HostOperationsKeepTheInvariant :=
  fun _ _ _ hinv => ⟨hostLoad_keeps_inv hinv, hostRun_keeps_inv hinv⟩

theorem Reachable.inv {s : State} (h : Reachable s) : Inv s := by
  induction h with
  | reset => exact resetMeetsTheInvariant
  | load image s t _ ht ih => exact hostLoad_keeps_inv ih ht
  | run s _ ih => exact hostRun_keeps_inv ih
  | step s t _ ht ih => exact stepKeepsTheInvariant s t ih ht

/-- The invariant's fault record has no value for the reserved cause (log entry 23). -/
theorem Inv.faultCause_ne_reserved {s : State} (h : Inv s) : s.faultCause ≠ .unsupportedAluOp := by
  obtain ⟨-, -, -, -, hrecord, -⟩ := h
  intro hcause
  rw [FaultRecord, hcause] at hrecord
  exact hrecord

/-- Settles O51, by induction on how the state is reached. -/
theorem reachableStatesMeetTheInvariant : Obligations.ReachableStatesMeetTheInvariant :=
  fun _ h => ⟨h.inv, h.inv.faultCause_ne_reserved⟩

end Sys2Proof.Machine
end
